-- ==== Sys2Proof/Word.lean ====
section
/-! DEFINITION. The words of the LPC (00_scope.md R10): a byte is 8 bits, a word is 32 bits, and the one
64-bit quantity is HLEN. All quantities are unsigned. `+` and `-` on these types are `add32` and `sub32`
of R11 (they wrap), and `~~~`, `&&&`, `|||`, `^^^` are its bitwise operations. -/

namespace Sys2Proof

/-- A byte: 8 bits (00_scope.md R10). -/
abbrev Byte := BitVec 8

/-- A word: 32 bits (00_scope.md R10). -/
abbrev Word := BitVec 32

/-- A double word: 64 bits, the width of HLEN (10_state.md R41). -/
abbrev DWord := BitVec 64

end Sys2Proof
end

