-- ==== Sys2Proof/Syntax.lean ====
section
/-! DEFINITION. The commands of the LPC, one constructor per row of spec/opcode_table.json, in the order of
30_encoding.md R104. A field of a command word is exactly eight bits (R102, R103), so an operand outside
its encoding cannot be written. -/

namespace Sys2Proof

/-- The nineteen commands (30_encoding.md R104). -/
inductive Instr where
  /-- NOP, opcode 0x00 (45_system.md R240). -/
  | nop
  /-- CLRERR, opcode 0x01 (45_system.md R241). -/
  | clrerr
  /-- SRESET, opcode 0x02 (45_system.md R242). -/
  | sreset
  /-- P_INIT, opcode 0x10 (40_prng.md R130). -/
  | pInit
  /-- P_RESET, opcode 0x11 (40_prng.md R133). -/
  | pReset
  /-- P_NEXT, opcode 0x12 (40_prng.md R134). -/
  | pNext
  /-- P_SEQ, opcode 0x13 (40_prng.md R136). -/
  | pSeq
  /-- P_PERIOD, opcode 0x14 (40_prng.md R138). -/
  | pPeriod
  /-- H_INIT, opcode 0x20 (41_hash.md R171). -/
  | hInit
  /-- H_UPDATE, opcode 0x21 (41_hash.md R172). -/
  | hUpdate
  /-- H_FINAL, opcode 0x22 (41_hash.md R173). -/
  | hFinal
  /-- H_DIGEST, opcode 0x23 (41_hash.md R174). -/
  | hDigest
  /-- H_VERIFY, opcode 0x24 (41_hash.md R175). -/
  | hVerify
  /-- K_DERIVE, opcode 0x30 (42_kdf.md R190): `n` is the number of key bytes asked for. -/
  | kDerive (n : Byte)
  /-- C_SETKEY, opcode 0x40 (43_cipher.md R200): word size `w`, key length `b`, round count `r`. -/
  | cSetkey (w b r : Byte)
  /-- C_ECB_ENC, opcode 0x41 (43_cipher.md R207). -/
  | cEcbEnc
  /-- C_ECB_DEC, opcode 0x42 (43_cipher.md R209). -/
  | cEcbDec
  /-- C_CBC_ENC, opcode 0x48 (44_cbc.md R224). -/
  | cCbcEnc
  /-- C_CBC_DEC, opcode 0x49 (44_cbc.md R228). -/
  | cCbcDec
  deriving DecidableEq, Repr

/-- The mnemonic of a command, as 30_encoding.md R104 spells it. -/
def Instr.mnemonic : Instr → String
  | .nop => "NOP"
  | .clrerr => "CLRERR"
  | .sreset => "SRESET"
  | .pInit => "P_INIT"
  | .pReset => "P_RESET"
  | .pNext => "P_NEXT"
  | .pSeq => "P_SEQ"
  | .pPeriod => "P_PERIOD"
  | .hInit => "H_INIT"
  | .hUpdate => "H_UPDATE"
  | .hFinal => "H_FINAL"
  | .hDigest => "H_DIGEST"
  | .hVerify => "H_VERIFY"
  | .kDerive _ => "K_DERIVE"
  | .cSetkey _ _ _ => "C_SETKEY"
  | .cEcbEnc => "C_ECB_ENC"
  | .cEcbDec => "C_ECB_DEC"
  | .cCbcEnc => "C_CBC_ENC"
  | .cCbcDec => "C_CBC_DEC"

end Sys2Proof
end

