-- ==== Sys2Proof/WellFormed.lean ====
section
/-! DEFINITION. Which command words are commands, stated by the opcode map of 30_encoding.md R104 (a word
selects a row when the masked word equals the row's match), independently of the decoder of R105. The
terms of `Instr` need no check of their own: each field has exactly the eight bits of its encoding. -/

namespace Sys2Proof

/-- One row of the opcode map (30_encoding.md R104). -/
structure OpcodeRow where
  mnemonic : String
  mask : Word
  pattern : Word
  deriving DecidableEq, Repr

/-- The word selects the row: `cw & mask = match` (R104). -/
def OpcodeRow.selects (row : OpcodeRow) (cw : Word) : Bool :=
  cw &&& row.mask == row.pattern

/-- The rows of format Z, whose mask is all ones (R101, R104). -/
def opcodeRowsZ : List OpcodeRow :=
  [⟨"NOP", 0xFFFFFFFF, 0x00000000⟩, ⟨"CLRERR", 0xFFFFFFFF, 0x00000001⟩,
   ⟨"SRESET", 0xFFFFFFFF, 0x00000002⟩, ⟨"P_INIT", 0xFFFFFFFF, 0x00000010⟩,
   ⟨"P_RESET", 0xFFFFFFFF, 0x00000011⟩, ⟨"P_NEXT", 0xFFFFFFFF, 0x00000012⟩,
   ⟨"P_SEQ", 0xFFFFFFFF, 0x00000013⟩, ⟨"P_PERIOD", 0xFFFFFFFF, 0x00000014⟩,
   ⟨"H_INIT", 0xFFFFFFFF, 0x00000020⟩, ⟨"H_UPDATE", 0xFFFFFFFF, 0x00000021⟩,
   ⟨"H_FINAL", 0xFFFFFFFF, 0x00000022⟩, ⟨"H_DIGEST", 0xFFFFFFFF, 0x00000023⟩,
   ⟨"H_VERIFY", 0xFFFFFFFF, 0x00000024⟩, ⟨"C_ECB_ENC", 0xFFFFFFFF, 0x00000041⟩,
   ⟨"C_ECB_DEC", 0xFFFFFFFF, 0x00000042⟩, ⟨"C_CBC_ENC", 0xFFFFFFFF, 0x00000048⟩,
   ⟨"C_CBC_DEC", 0xFFFFFFFF, 0x00000049⟩]

/-- The rows of formats K and C (R102, R103, R104). -/
def opcodeRowsKC : List OpcodeRow :=
  [⟨"K_DERIVE", 0xFF00FFFF, 0x00000030⟩, ⟨"C_SETKEY", 0x000000FF, 0x00000040⟩]

/-- The complete opcode map: nineteen rows (R104). -/
def opcodeRows : List OpcodeRow := opcodeRowsZ ++ opcodeRowsKC

/-- A well-formed command word: one that selects a row of the opcode map. A word with an unassigned
opcode, or with a reserved bit set, selects none (R106, R107). -/
def commandWordWf (cw : Word) : Bool := opcodeRows.any (·.selects cw)

end Sys2Proof
end

