-- ==== Sys2Proof/Decode.lean ====
section
/-! DEFINITION. The decoder of 30_encoding.md R105, a total function on 32-bit command words, and the
encoder, from the formats of R101 to R103 and the assembler's formulas of R115. -/

namespace Sys2Proof

/-- Why a command word is `illegal` (30_encoding.md R106). Each is safe: the command fails with E_ILLEGAL,
as the spec says. -/
inductive DecodeError where
  /-- The opcode is not one of the nineteen (R107). -/
  | unassignedOpcode
  /-- The opcode is of format Z or K and a reserved bit is set (R101, R102). -/
  | reservedBitSet
  deriving DecidableEq, Repr

/-- `cw[7:0]`: the opcode (R100). -/
def opcodeField (cw : Word) : Byte := cw.extractLsb' 0 8

/-- `cw[15:8]`: the round count `r` of format C; reserved in formats Z and K (R102, R103). -/
def rField (cw : Word) : Byte := cw.extractLsb' 8 8

/-- `cw[23:16]`: the key length `b` of format C, the count `n` of format K; reserved in format Z. -/
def bField (cw : Word) : Byte := cw.extractLsb' 16 8

/-- `cw[31:24]`: the word size `w` of format C; reserved in formats Z and K. -/
def wField (cw : Word) : Byte := cw.extractLsb' 24 8

/-- `cw[31:8]`: the reserved field of format Z (R101). -/
def reservedZ (cw : Word) : BitVec 24 := cw.extractLsb' 8 24

/-- The commands of format Z with their opcodes (R104). -/
def formatZ : List (Byte × Instr) :=
  [(0x00, .nop), (0x01, .clrerr), (0x02, .sreset),
   (0x10, .pInit), (0x11, .pReset), (0x12, .pNext), (0x13, .pSeq), (0x14, .pPeriod),
   (0x20, .hInit), (0x21, .hUpdate), (0x22, .hFinal), (0x23, .hDigest), (0x24, .hVerify),
   (0x41, .cEcbEnc), (0x42, .cEcbDec), (0x48, .cCbcEnc), (0x49, .cCbcDec)]

/-- The decoder (R105). -/
def decode (cw : Word) : Except DecodeError Instr :=
  if opcodeField cw = 0x30#8 then
    if rField cw = 0 ∧ wField cw = 0 then .ok (.kDerive (bField cw)) else .error .reservedBitSet
  else if opcodeField cw = 0x40#8 then
    .ok (.cSetkey (wField cw) (bField cw) (rField cw))
  else
    match formatZ.lookup (opcodeField cw) with
    | some i => if reservedZ cw = 0 then .ok i else .error .reservedBitSet
    | none => .error .unassignedOpcode

/-- The opcode of a command (R104). -/
def Instr.opcode : Instr → Byte
  | .nop => 0x00
  | .clrerr => 0x01
  | .sreset => 0x02
  | .pInit => 0x10
  | .pReset => 0x11
  | .pNext => 0x12
  | .pSeq => 0x13
  | .pPeriod => 0x14
  | .hInit => 0x20
  | .hUpdate => 0x21
  | .hFinal => 0x22
  | .hDigest => 0x23
  | .hVerify => 0x24
  | .kDerive _ => 0x30
  | .cSetkey _ _ _ => 0x40
  | .cEcbEnc => 0x41
  | .cEcbDec => 0x42
  | .cCbcEnc => 0x48
  | .cCbcDec => 0x49

/-- The immediate fields of a command, each at its place in the word: `N·2^16` for K_DERIVE,
`R·2^8 + B·2^16 + W·2^24` for C_SETKEY, nothing for format Z (R101 to R103, R115). -/
def Instr.immediates : Instr → Nat
  | .kDerive n => n.toNat * 2 ^ 16
  | .cSetkey w b r => r.toNat * 2 ^ 8 + b.toNat * 2 ^ 16 + w.toNat * 2 ^ 24
  | .nop | .clrerr | .sreset | .pInit | .pReset | .pNext | .pSeq | .pPeriod
  | .hInit | .hUpdate | .hFinal | .hDigest | .hVerify
  | .cEcbEnc | .cEcbDec | .cCbcEnc | .cCbcDec => 0

/-- The encoder: the command word of a command (R100 to R103, R115). -/
def encode (i : Instr) : Word := BitVec.ofNat 32 (i.opcode.toNat + i.immediates)

/-- The instruction the decoder reads from the table word `w` of `nbits` bits: a command is one 32-bit
word, so the bits above `nbits` are zero and no byte order enters (R100). -/
def decodeTableWord (nbits w : Nat) : Option Instr :=
  (decode (BitVec.ofNat 32 (w % 2 ^ nbits))).toOption

end Sys2Proof
end

