-- ==== Sys2Proof/Config.lean ====
section
/-! DEFINITION. What an implementation of the LPC fixes: the parameters of 00_scope.md R8, each a named
constant, and the free values, which the spec leaves open: constants with no body, so that nothing can be
proved of what they are. -/

namespace Sys2Proof.Config

/-- `PW`: width in bits of the PRNG registers (R8). -/
def pw : Nat := 32

/-- `M_MAX`: the largest modulus that can be loaded (R8). -/
def mMax : Nat := 2 ^ 32 - 1

/-- `HW`: width in bits of a hash state word (R8). -/
def hw : Nat := 32

/-- `HBLOCK`: hash block size in bytes (R8). -/
def hblock : Nat := 64

/-- `DIGEST_BYTES`: digest size in bytes (R8). -/
def digestBytes : Nat := 16

/-- `W`: cipher word size in bits (R8). -/
def cipherWordBits : Nat := 32

/-- `CBLOCK`: cipher block size in bytes (R8). -/
def cblock : Nat := 8

/-- `R_MAX`: the largest round count (R8). -/
def rMax : Nat := 255

/-- `B_MIN`: the least key length in bytes that C_SETKEY accepts (R8). -/
def bMin : Nat := 1

/-- `B_MAX`: the largest key length in bytes that C_SETKEY accepts (R8). -/
def bMax : Nat := 16

/-- `S_WORDS`: capacity of the key-schedule array S (R8). -/
def sWords : Nat := 512

/-- `P32`: the first key-schedule constant (R8, 43_cipher.md R202). UNVERIFIED by any vector of the
source document (93_implementation_defined.md K6); log 12. -/
def p32 : Word := 0xB7E15163#32

/-- `Q32`: the second key-schedule constant (R8, 43_cipher.md R202). UNVERIFIED as `p32`; log 12. -/
def q32 : Word := 0x9E3779B9#32

/-- `BUF_SIZE`: size in bytes of BUF (R8). -/
def bufSize : Nat := 65536

/-- `BUF_BASE`: host byte offset of BUF byte 0 (R8). -/
def bufBase : Nat := 0x10000

/-- FREE VALUE: what BUF byte `a` holds after the `n`-th hardware reset until something is written to it
(20_memory.md R72, 93_implementation_defined.md U9); log 4. -/
opaque bufAtReset (n a : Nat) : Byte

/-- FREE VALUE: what word `i` of S holds where no key schedule has put a value (10_state.md R48, U10).
No run from reset reads it; log 6. -/
opaque keyScheduleFree (i : Nat) : Word

/-- FREE VALUE: what byte `i` of HBLK holds where no message byte waits (10_state.md R42, U11). No run
from reset reads it; log 7. -/
opaque hashBlockFree (i : Nat) : Byte

end Sys2Proof.Config
end

