-- ==== Sys2Proof/Machine/Port.lean ====
section
/-! DEFINITION. The vocabulary of the host port (20_memory.md R71, R80, R91): register names, bus accesses,
the transactions they stand for, the inputs of the machine and its responses. Types only; what they do
is in HostPort.lean and Step.lean. -/

namespace Sys2Proof.Machine

/-- The thirty host-visible registers, in the order of 10_state.md R21. -/
inductive Reg where
  | cmd | status | errcode | arg0 | arg1 | arg2 | res0 | res1
  | pm | pa | pc | px0 | px | phcnt
  | ha | hb | hc | hd | hlenl | hlenh
  | hexp0 | hexp1 | hexp2 | hexp3
  | key0 | key1 | key2 | key3
  | cr | cb
  deriving DecidableEq, Repr

/-- One access on the host port, at a host byte offset from the block's base (20_memory.md R71). Only 8-bit
and 32-bit accesses have a meaning (R82); an access of any other width is `otherWidth`, and HostErr (R84). -/
inductive Txn where
  /-- An 8-bit read. -/
  | read8 (off : Nat)
  /-- A 32-bit read. -/
  | read32 (off : Nat)
  /-- An 8-bit write. -/
  | write8 (off : Nat) (v : Byte)
  /-- A 32-bit write. -/
  | write32 (off : Nat) (v : Word)
  /-- A read or write of any other width. -/
  | otherWidth (off : Nat)
  deriving DecidableEq, Repr

/-- The transactions the host can perform (20_memory.md R80), after address decoding: a register by its
name, a BUF byte by its index. -/
inductive PortOp where
  | regRead (r : Reg)
  | regWrite (r : Reg) (v : Word)
  | bufRead8 (k : Nat)
  | bufWrite8 (k : Nat) (v : Byte)
  | bufRead32 (k : Nat)
  | bufWrite32 (k : Nat) (v : Word)
  deriving DecidableEq, Repr

/-- What can arrive at the block from outside: an access on the host port, or hardware reset
(70_reset_and_hazards.md R280). -/
inductive Input where
  | txn (t : Txn)
  | hwReset
  deriving DecidableEq, Repr

/-- What the host port answers to an access (20_memory.md R80, R84). -/
inductive Response where
  /-- A 32-bit read completed with this value. -/
  | data32 (v : Word)
  /-- An 8-bit read completed with this value. -/
  | data8 (v : Byte)
  /-- A write completed; for CMD, after the command it issued has ended (R87). -/
  | done
  /-- The access was refused: HostErr, with no change to any state (R84). -/
  | hostErr
  deriving DecidableEq, Repr

end Sys2Proof.Machine
end

