-- ==== Sys2Proof/Machine/State.lean ====
section
/-! DEFINITION. The state of the LPC as plain data (10_state.md, 20_memory.md R70), the reasons a step can
stop, and the state after reset. -/

namespace Sys2Proof.Machine

/-- The reasons a step can stop with a fault. There is none: every error of the LPC is recorded in its
registers and the machine goes on, and nothing sticks or hangs (60_exceptions.md R256, R264). Safe (log 15). -/
inductive Fault where
  deriving DecidableEq, Repr

/-- The reasons a step can be refused. -/
inductive Refusal where
  /-- Raised only by an arm of `exec` whose command has no meaning yet. No arm does so. Safe. -/
  | notModelled (mnemonic : String)
  deriving DecidableEq, Repr

/-- The causes of a failed command (60_exceptions.md R250). -/
inductive ErrCode where
  /-- E_ILLEGAL: the command word decodes to `illegal`. -/
  | eIllegal
  /-- E_PRNG_PARAM: out-of-range PRNG parameters. -/
  | ePrngParam
  /-- E_COUNT: a non-positive count. -/
  | eCount
  /-- E_WORDSIZE: unsupported cipher word size. -/
  | eWordsize
  /-- E_KEYLEN: key length 0 or above 16. -/
  | eKeylen
  /-- E_SHORT: ciphertext shorter than two blocks. -/
  | eShort
  /-- E_LENGTH: ciphertext length not a multiple of 8. -/
  | eLength
  /-- E_PADDING: invalid padding on decrypt. -/
  | ePadding
  /-- E_STATE: an engine is not in the state the command needs. -/
  | eState
  /-- E_ADDR: a BUF range is out of bounds. -/
  | eAddr
  deriving DecidableEq, Repr

/-- BUF, as the list of the bytes written since hardware reset, addresses strictly rising. An address not
listed has not been written; what it reads as is `State.readByte`'s to say (20_memory.md R70, R72; log 4). -/
abbrev Memory := List Host.Cell

/-- The PRNG Engine (10_state.md R33 to R39). -/
structure Prng where
  /-- PM: the modulus `m`. -/
  pm : Word
  /-- PA: the multiplier `a`. -/
  pa : Word
  /-- PC: the increment `c`. -/
  pc : Word
  /-- PX0: the seed `x0`. -/
  px0 : Word
  /-- PX: the current value. -/
  px : Word
  /-- PHCNT: the number of values emitted, mod 2^32. -/
  phcnt : Word
  /-- PVALID: the parameters have been validated and not written since. -/
  pvalid : Bool
  /-- HIST: the values emitted since the generator was last reset, oldest first (R38). -/
  hist : List Word
  deriving DecidableEq, Repr

/-- The Hash Engine (10_state.md R40 to R43). -/
structure HashEngine where
  ha : Word
  hb : Word
  hc : Word
  hd : Word
  /-- HLEN: message bytes absorbed, read as HLENL and HLENH. -/
  hlen : DWord
  /-- HBLK: the bytes that wait for their block to fill, first byte first. A byte of HBLK that holds no
  information (R42) is not listed (log 7). -/
  hblk : List Byte
  /-- HFIN: the accumulator is finalized. -/
  hfin : Bool
  deriving DecidableEq, Repr

/-- The key schedule of the Block Cipher Engine (10_state.md R48 to R50). -/
structure KeySchedule where
  /-- S: the words that hold a schedule, from `S[0]` on. A word whose contents are unspecified (R48) is
  not listed (log 6). -/
  s : List Word
  /-- CR: CR[7:0], the round count. -/
  cr : Byte
  /-- CB: CB[7:0], the key length. -/
  cb : Byte
  /-- KSVALID: S holds a key schedule. -/
  ksvalid : Bool
  deriving DecidableEq, Repr

/-- The complete state (10_state.md R20, R21), and three fields of the model's own: `resets`, `port`,
`resp` (logs 1, 3, 5). -/
structure State where
  /-- ERRCODE[7:0] (R32). -/
  errcode : Byte
  /-- STATUS.ERR (R30). -/
  err : Bool
  /-- STATUS.STICKY (R30). -/
  sticky : Bool
  arg0 : Word
  arg1 : Word
  arg2 : Word
  res0 : Word
  res1 : Word
  prng : Prng
  hash : HashEngine
  hexp0 : Word
  hexp1 : Word
  hexp2 : Word
  hexp3 : Word
  key0 : Word
  key1 : Word
  key2 : Word
  key3 : Word
  ks : KeySchedule
  buf : Memory
  /-- The model's own: how many hardware resets have happened. -/
  resets : Nat
  /-- The model's own: the inputs not yet taken, oldest first. -/
  port : List Input
  /-- The model's own: the response of the most recent access since hardware reset. -/
  resp : Option Response
  deriving DecidableEq, Repr

/-- The PRNG Engine after reset (10_state.md R21, R60). -/
def Prng.reset : Prng :=
  { pm := 0, pa := 0, pc := 0, px0 := 0, px := 0, phcnt := 0, pvalid := false, hist := [] }

/-- The Hash Engine after reset: the state Init, with the initial constants (10_state.md R21, R44, R60). -/
def HashEngine.reset : HashEngine :=
  { ha := 0x67452301, hb := 0xEFCDAB89, hc := 0x98BADCFE, hd := 0x10325476,
    hlen := 0, hblk := [], hfin := false }

/-- The key schedule after reset: none (10_state.md R48, R49, R60). -/
def KeySchedule.reset : KeySchedule := { s := [], cr := 0, cb := 0, ksvalid := false }

/-- The machine right after hardware reset (10_state.md R21, R60; 70_reset_and_hazards.md R280). -/
def State.reset : State :=
  { errcode := 0, err := false, sticky := false,
    arg0 := 0, arg1 := 0, arg2 := 0, res0 := 0, res1 := 0,
    prng := Prng.reset, hash := HashEngine.reset,
    hexp0 := 0, hexp1 := 0, hexp2 := 0, hexp3 := 0,
    key0 := 0, key1 := 0, key2 := 0, key3 := 0,
    ks := KeySchedule.reset, buf := [], resets := 0, port := [], resp := none }

end Sys2Proof.Machine
end

