-- ==== Sys2Proof/Machine/Flags.lean ====
section
/-! DEFINITION. STATUS: the view of the five flags (10_state.md R30). The LPC has no other flag (R31). -/

namespace Sys2Proof.Machine

/-- STATUS: ERR, STICKY, PVALID, KSVALID, HFIN in bits 0 to 4; bits 31..5 read as 0 (10_state.md R30). -/
def State.status (s : State) : Word :=
  BitVec.ofNat 32 (s.err.toNat + 2 * s.sticky.toNat + 4 * s.prng.pvalid.toNat
    + 8 * s.ks.ksvalid.toNat + 16 * s.hash.hfin.toNat)

end Sys2Proof.Machine
end

