-- ==== Sys2Proof/Machine/Operands.lean ====
section
/-! DEFINITION. Operands: byte order (00_scope.md R12), rotations (R11), range checks (R13), and the byte
views of the KEY registers (10_state.md R46). -/

namespace Sys2Proof.Machine

/-- `LE32(v)`: least significant byte first (00_scope.md R12). -/
def le32 (v : Word) : List Byte :=
  [v.extractLsb' 0 8, v.extractLsb' 8 8, v.extractLsb' 16 8, v.extractLsb' 24 8]

/-- `LE64(v)`: least significant byte first (R12). -/
def le64 (v : DWord) : List Byte :=
  le32 (v.extractLsb' 0 32) ++ le32 (v.extractLsb' 32 32)

/-- `le(s)`: the sum of `s[i]·2^(8i)` (R12). -/
def le : List Byte → Nat
  | [] => 0
  | b :: s => b.toNat + 2 ^ 8 * le s

/-- The word that a string of at most four bytes is in little-endian order (R12). -/
def wordOf (s : List Byte) : Word := BitVec.ofNat 32 (le s)

/-- `rotl32(x, n)` for `0 ≤ n ≤ 31` (00_scope.md R11). -/
def rotl32 (x : Word) (n : Nat) : Word := x.rotateLeft n

/-- `rotr32(x, n) = rotl32(x, (32 − n) mod 32)` (R11). -/
def rotr32 (x : Word) (n : Nat) : Word := rotl32 x ((32 - n) % 32)

/-- `InRange(addr, n)`: on mathematical integers, with no wrap-around (00_scope.md R13, 20_memory.md R77). -/
def inRange (addr n : Nat) : Bool := decide (addr + n ≤ Config.bufSize)

/-- Bytewise XOR of two strings of equal length (44_cbc.md R226). -/
def xorBytes (x y : List Byte) : List Byte := List.zipWith (· ^^^ ·) x y

/-- The key bytes `KEY[0..15]` (10_state.md R46). -/
def State.keyBytes (s : State) : List Byte :=
  le32 s.key0 ++ le32 s.key1 ++ le32 s.key2 ++ le32 s.key3

/-- The KEY registers holding the sixteen bytes `k` (10_state.md R46). -/
def State.setKeyBytes (s : State) (k : List Byte) : State :=
  { s with
    key0 := wordOf (k.take 4)
    key1 := wordOf ((k.drop 4).take 4)
    key2 := wordOf ((k.drop 8).take 4)
    key3 := wordOf ((k.drop 12).take 4) }

/-- The source address of a command: ARG0 (20_memory.md R75, 30_encoding.md R109). -/
def State.src (s : State) : Nat := s.arg0.toNat

/-- The length in bytes of a command's source: ARG1 (R75, R109). -/
def State.len (s : State) : Nat := s.arg1.toNat

/-- The destination address of a command: ARG2 (R75, R109). -/
def State.dst (s : State) : Nat := s.arg2.toNat

end Sys2Proof.Machine
end

