-- ==== Sys2Proof/Machine/Ops.lean ====
section
/-! DEFINITION. The named operations over BUF, and the two ends of a command: success and failure. -/

namespace Sys2Proof.Machine

/-- Memory in canonical form: addresses strictly rising, all of them BUF addresses (20_memory.md R70;
log 4). -/
abbrev Memory.wf (m : Memory) : Prop :=
  m.Pairwise (fun c d => c.1 < d.1) ∧ ∀ c ∈ m, c.1 < Config.bufSize

/-- The byte last written to address `a` since hardware reset, if one was. -/
def Memory.find : Memory → Nat → Option Byte
  | [], _ => none
  | (b, v) :: m, a => if a = b then some v else Memory.find m a

/-- `BUF[a] <- v`, on the list. -/
def Memory.put : Memory → Nat → Byte → Memory
  | [], a, v => [(a, v)]
  | (b, w) :: m, a, v =>
    if a < b then (a, v) :: (b, w) :: m
    else if a = b then (a, v) :: m
    else (b, w) :: Memory.put m a v

/-- The bytes of `bs` written from address `a` on. -/
def Memory.putAll : Memory → Nat → List Byte → Memory
  | m, _, [] => m
  | m, a, v :: bs => Memory.putAll (m.put a v) (a + 1) bs

/-- `BUF[a]`: the byte last written since hardware reset, or, where none was, the free value that the byte
held at that reset (20_memory.md R70, R72; log 4). -/
def State.readByte (s : State) (a : Nat) : Byte :=
  (s.buf.find a).getD (Config.bufAtReset s.resets a)

/-- `MemRead(addr, n)` (00_scope.md R13). -/
def State.memRead (s : State) (addr n : Nat) : List Byte :=
  (List.range n).map (fun i => s.readByte (addr + i))

/-- `BUF[a] <- v`. -/
def State.writeByte (s : State) (a : Nat) (v : Byte) : State :=
  { s with buf := s.buf.put a v }

/-- `MemWrite(addr, |bs|, bs)` (00_scope.md R13). -/
def State.memWrite (s : State) (addr : Nat) (bs : List Byte) : State :=
  { s with buf := s.buf.putAll addr bs }

/-- The error codes (60_exceptions.md R250). -/
def ErrCode.code : ErrCode → Byte
  | .eIllegal => 1
  | .ePrngParam => 2
  | .eCount => 3
  | .eWordsize => 4
  | .eKeylen => 5
  | .eShort => 6
  | .eLength => 7
  | .ePadding => 8
  | .eState => 9
  | .eAddr => 10

/-- The end of a failed command, the LPC's one form of exception: the code is recorded, ERR and STICKY are
set, nothing else changes and control goes nowhere (60_exceptions.md R253, R256, R257). There is no return
from it: the next command overwrites ERRCODE and ERR (R263). -/
def State.raise (s : State) (e : ErrCode) : State :=
  { s with errcode := e.code, err := true, sticky := true }

/-- The end of a successful command: `ERRCODE <- 0 ; ERR <- 0` (60_exceptions.md R255). -/
def State.finish (s : State) : State :=
  { s with errcode := 0, err := false }

/-- A command that fails with `e`. -/
def failWith (e : ErrCode) (s : State) : Host.Outcome State Fault Refusal := .next (s.raise e)

/-- A command that succeeds, its operation having made `s`. -/
def succeed (s : State) : Host.Outcome State Fault Refusal := .next s.finish

/-- The error of the first check in the list that does not hold (60_exceptions.md R258; each command's
Checks, 00_scope.md R14). A check is the condition it requires and the error that its failure raises. -/
def firstFailure : List (Bool × ErrCode) → Option ErrCode
  | [] => none
  | (ok, e) :: checks => if ok then firstFailure checks else some e

/-- A command: its checks in order, then, if all hold, its operation, then the successful end. A failed check
comes before any change of state (60_exceptions.md R257). -/
def command (checks : List (Bool × ErrCode)) (operation : State → State) (s : State) :
    Host.Outcome State Fault Refusal :=
  match firstFailure checks with
  | some e => failWith e s
  | none => succeed (operation s)

end Sys2Proof.Machine
end

