-- ==== Sys2Proof/Machine/Cipher.lean ====
section
/-! DEFINITION. The Block Cipher Engine's key schedule and single-block primitive (43_cipher.md). -/

namespace Sys2Proof.Machine

/-- The key words `L` of a key of `b` bytes, zero-padded to whole words: word `j` is `le(key[4j .. 4j+4))`
with missing bytes taken as 0 (43_cipher.md R201). -/
def keyWords (key : List Byte) (b : Nat) : List Word :=
  (List.range ((b + 3) / 4)).map (fun j => wordOf (((key.take b).drop (4 * j)).take 4))

/-- The initial fill of `t` words: `S[i] = P32 + i·Q32` (43_cipher.md R202). -/
def initialSchedule : Nat → List Word
  | 0 => []
  | t + 1 => initialSchedule t ++ [Config.p32 + BitVec.ofNat 32 t * Config.q32]

/-- The working state of the key-schedule mixing (43_cipher.md R203). -/
structure MixWork where
  s : List Word
  l : List Word
  a : Word
  b : Word
  i : Nat
  j : Nat
  deriving DecidableEq, Repr

/-- One mixing round: `B` uses the `A` just computed (43_cipher.md R203). -/
def mixRound (x : MixWork) : MixWork :=
  let a := rotl32 (x.s.getD x.i 0 + x.a + x.b) 3
  let b := rotl32 (x.l.getD x.j 0 + a + x.b) ((a + x.b).toNat % 32)
  { s := x.s.set x.i a, l := x.l.set x.j b, a := a, b := b,
    i := (x.i + 1) % x.s.length, j := (x.j + 1) % x.l.length }

/-- `n` mixing rounds. -/
def mixRounds : Nat → MixWork → MixWork
  | 0, x => x
  | n + 1, x => mixRounds n (mixRound x)

/-- `KeySchedule(key, b, r)` (43_cipher.md R204): `3·max(t, c)` mixing rounds over the initial fill. -/
def keySchedule (key : List Byte) (b r : Nat) : List Word :=
  let t := 2 * (r + 1)
  let l := keyWords key b
  (mixRounds (3 * max t l.length)
    { s := initialSchedule t, l := l, a := 0, b := 0, i := 0, j := 0 }).s

/-- `S[i]` (10_state.md R48). A word no schedule has filled, which no rule reads, is a free value (log 6). -/
def scheduleWord (s : List Word) (i : Nat) : Word := s.getD i (Config.keyScheduleFree i)

/-- The two words `(A, B)` of a cipher block (43_cipher.md R205). -/
structure BlockWords where
  a : Word
  b : Word
  deriving DecidableEq, Repr

/-- The block's words, read little-endian (R205). -/
def BlockWords.ofBytes (blk : List Byte) : BlockWords :=
  ⟨wordOf (blk.take 4), wordOf ((blk.drop 4).take 4)⟩

/-- The words serialized little-endian (R205). -/
def BlockWords.toBytes (x : BlockWords) : List Byte := le32 x.a ++ le32 x.b

/-- Round `i` of encryption; `B` uses the updated `A` (43_cipher.md R205). -/
def encRound (s : List Word) (i : Nat) (x : BlockWords) : BlockWords :=
  let a := rotl32 (x.a ^^^ x.b) (x.b.toNat % 32) + scheduleWord s (2 * i)
  let b := rotl32 (x.b ^^^ a) (a.toNat % 32) + scheduleWord s (2 * i + 1)
  ⟨a, b⟩

/-- Rounds `1..n` of encryption, in that order. -/
def encRounds (s : List Word) : Nat → BlockWords → BlockWords
  | 0, x => x
  | n + 1, x => encRound s (n + 1) (encRounds s n x)

/-- `EcbEncrypt(blk)` with `r` rounds (43_cipher.md R205). -/
def ecbEncrypt (s : List Word) (r : Nat) (blk : List Byte) : List Byte :=
  let x := BlockWords.ofBytes blk
  (encRounds s r ⟨x.a + scheduleWord s 0, x.b + scheduleWord s 1⟩).toBytes

/-- Round `i` of decryption (43_cipher.md R206). -/
def decRound (s : List Word) (i : Nat) (x : BlockWords) : BlockWords :=
  let b := rotr32 (x.b - scheduleWord s (2 * i + 1)) (x.a.toNat % 32) ^^^ x.a
  let a := rotr32 (x.a - scheduleWord s (2 * i)) (b.toNat % 32) ^^^ b
  ⟨a, b⟩

/-- Rounds `n, n−1, ..., 1` of decryption, in that order. -/
def decRounds (s : List Word) : Nat → BlockWords → BlockWords
  | 0, x => x
  | n + 1, x => decRounds s n (decRound s (n + 1) x)

/-- `EcbDecrypt(blk)` with `r` rounds (43_cipher.md R206). -/
def ecbDecrypt (s : List Word) (r : Nat) (blk : List Byte) : List Byte :=
  let x := decRounds s r (BlockWords.ofBytes blk)
  BlockWords.toBytes ⟨x.a - scheduleWord s 0, x.b - scheduleWord s 1⟩

/-- `EcbEncrypt` under the schedule the engine holds: `r = CR` (R205). -/
def KeySchedule.encrypt (k : KeySchedule) (blk : List Byte) : List Byte :=
  ecbEncrypt k.s k.cr.toNat blk

/-- `EcbDecrypt` under the schedule the engine holds: `r = CR` (R206). -/
def KeySchedule.decrypt (k : KeySchedule) (blk : List Byte) : List Byte :=
  ecbDecrypt k.s k.cr.toNat blk

/-- C_SETKEY (43_cipher.md R200). -/
def execCSetkey (w b r : Byte) (s : State) : Host.Outcome State Fault Refusal :=
  command
    [(decide (w.toNat = Config.cipherWordBits), .eWordsize),
     (decide (Config.bMin ≤ b.toNat ∧ b.toNat ≤ Config.bMax), .eKeylen)]
    (fun s => { s with ks :=
      { s := keySchedule s.keyBytes b.toNat r.toNat, cr := r, cb := b, ksvalid := true } }) s

/-- The two range checks of a single-block command (43_cipher.md R207, R209). -/
def State.blockRangesOk (s : State) : Bool :=
  inRange s.src Config.cblock && inRange s.dst Config.cblock

/-- C_ECB_ENC (43_cipher.md R207). -/
def execCEcbEnc (s : State) : Host.Outcome State Fault Refusal :=
  command [(s.ks.ksvalid, .eState), (s.blockRangesOk, .eAddr)]
    (fun s => s.memWrite s.dst (s.ks.encrypt (s.memRead s.src Config.cblock))) s

/-- C_ECB_DEC (43_cipher.md R209). -/
def execCEcbDec (s : State) : Host.Outcome State Fault Refusal :=
  command [(s.ks.ksvalid, .eState), (s.blockRangesOk, .eAddr)]
    (fun s => s.memWrite s.dst (s.ks.decrypt (s.memRead s.src Config.cblock))) s

end Sys2Proof.Machine
end

