-- ==== Sys2Proof/Machine/Prng.lean ====
section
/-! DEFINITION. The PRNG Engine and its commands (40_prng.md). -/

namespace Sys2Proof.Machine

/-- One step of the recurrence, `(a·x + c) mod m` on exact integers (40_prng.md R131). With `m > 0` the
result is below `m`. R37 rules out `m = 0` wherever it is used (log 13). -/
def lcgStep (m a c x : Word) : Word :=
  BitVec.ofNat 32 ((a.toNat * x.toNat + c.toNat) % m.toNat)

/-- `Advance()` (40_prng.md R132). -/
def Prng.advance (g : Prng) : Prng :=
  let x := lcgStep g.pm g.pa g.pc g.px
  { g with px := x, hist := g.hist ++ [x], phcnt := g.phcnt + 1 }

/-- `ResetGen()` (40_prng.md R135). -/
def Prng.resetGen (g : Prng) : Prng :=
  { g with px := g.px0, hist := [], phcnt := 0 }

/-- The invariants that P_INIT checks (40_prng.md R130). -/
def Prng.paramsOk (g : Prng) : Bool :=
  decide (g.pm ≠ 0 ∧ g.pa < g.pm ∧ g.pc < g.pm ∧ g.px0 < g.pm)

/-- The loop of P_SEQ: `n` advances and the values they return, in order (40_prng.md R136). -/
def Prng.advances : Nat → Prng → List Word × Prng
  | 0, g => ([], g)
  | n + 1, g =>
    let g' := g.advance
    let rest := Prng.advances n g'
    (g'.px :: rest.1, rest.2)

/-- The loop of P_PERIOD from index `j` on, with `fuel` advances left and the map `seen` from values to
indices (40_prng.md R138). The answer is the period, if a repeat was found, and the generator as the
advances left it. -/
def Prng.periodLoop : (fuel j : Nat) → (seen : List (Word × Nat)) → Prng → Option Nat × Prng
  | 0, _, _, g => (none, g)
  | fuel + 1, j, seen, g =>
    let g' := g.advance
    match seen.lookup g'.px with
    | some k => (some (j - k), g')
    | none => Prng.periodLoop fuel (j + 1) ((g'.px, j) :: seen) g'

/-- `findPeriod(maxIterations)` on the generator: reset, the seed counts as index 0, then the loop from
index 1 (40_prng.md R138). -/
def Prng.findPeriod (g : Prng) (maxIterations : Nat) : Option Nat × Prng :=
  let g0 := g.resetGen
  Prng.periodLoop maxIterations 1 [(g0.px, 0)] g0

/-- P_INIT (40_prng.md R130). -/
def execPInit (s : State) : Host.Outcome State Fault Refusal :=
  command [(s.prng.paramsOk, .ePrngParam)]
    (fun s => { s with prng := { s.prng.resetGen with pvalid := true } }) s

/-- P_RESET (40_prng.md R133). -/
def execPReset (s : State) : Host.Outcome State Fault Refusal :=
  command [(s.prng.pvalid, .eState)] (fun s => { s with prng := s.prng.resetGen }) s

/-- P_NEXT (40_prng.md R134). -/
def execPNext (s : State) : Host.Outcome State Fault Refusal :=
  command [(s.prng.pvalid, .eState)]
    (fun s => { s with prng := s.prng.advance, res0 := s.prng.advance.px }) s

/-- P_SEQ: ARG0 is the count, ARG2 the destination (40_prng.md R136). -/
def execPSeq (s : State) : Host.Outcome State Fault Refusal :=
  let n := s.arg0.toNat
  command [(decide (1 ≤ n), .eCount), (s.prng.pvalid, .eState), (inRange s.dst (4 * n), .eAddr)]
    (fun s =>
      let out := Prng.advances n s.prng.resetGen
      { s.memWrite s.dst (out.1.flatMap le32) with prng := out.2 }) s

/-- P_PERIOD: ARG0 is the largest number of advances (40_prng.md R138). -/
def execPPeriod (s : State) : Host.Outcome State Fault Refusal :=
  command [(s.prng.pvalid, .eState)]
    (fun s =>
      match s.prng.findPeriod s.arg0.toNat with
      | (some period, g) => { s with prng := g, res0 := BitVec.ofNat 32 period, res1 := 1 }
      | (none, g) => { s with prng := g, res0 := s.arg0, res1 := 0 }) s

end Sys2Proof.Machine
end

