-- ==== Sys2Proof/Machine/Cbc.lean ====
section
/-! DEFINITION. The CBC mode chaining controller (44_cbc.md). -/

namespace Sys2Proof.Machine

/-- `Pad8(d)` (44_cbc.md R220). -/
def pad8 (d : List Byte) : List Byte :=
  let p := 8 - d.length % 8
  d ++ List.replicate p (BitVec.ofNat 8 p)

/-- `Unpad8(q)`: only the last byte is examined; `none` is E_PADDING (44_cbc.md R221). -/
def unpad8 (q : List Byte) : Option (List Byte) :=
  let p := (q.getLastD 0).toNat
  if p = 0 ∨ 8 < p then none else some (q.take (q.length - p))

/-- `MakeIV()`: the eight bytes, and the generator after its two advances (44_cbc.md R225). -/
def Prng.makeIV (g : Prng) : List Byte × Prng :=
  let g1 := g.resetGen.advance
  let g2 := g1.advance
  (le32 g1.px ++ le32 g2.px, g2)

/-- The encryption loop over `n` blocks of `q`, chained on `prev` (44_cbc.md R226, step 5). -/
def cbcEncBlocks (k : KeySchedule) : (n : Nat) → (prev q : List Byte) → List Byte
  | 0, _, _ => []
  | n + 1, prev, q =>
    let c := k.encrypt (xorBytes (q.take 8) prev)
    c ++ cbcEncBlocks k n c (q.drop 8)

/-- `CbcEncrypt(P)` with the raw IV `iv`: the encrypted IV, then the chained blocks of the padded plaintext
(44_cbc.md R226). -/
def cbcEncrypt (k : KeySchedule) (iv p : List Byte) : List Byte :=
  let q := pad8 p
  k.encrypt iv ++ cbcEncBlocks k (q.length / 8) iv q

/-- The decryption loop over `n` blocks of `y`, chained on `prev` (44_cbc.md R227). -/
def cbcDecBlocks (k : KeySchedule) : (n : Nat) → (prev y : List Byte) → List Byte
  | 0, _, _ => []
  | n + 1, prev, y =>
    let cblk := y.take 8
    xorBytes (k.decrypt cblk) prev ++ cbcDecBlocks k n cblk (y.drop 8)

/-- `CbcDecrypt(Y)`; `none` is E_PADDING (44_cbc.md R227). -/
def cbcDecrypt (k : KeySchedule) (y : List Byte) : Option (List Byte) :=
  unpad8 (cbcDecBlocks k (y.length / 8 - 1) (k.decrypt (y.take 8)) (y.drop 8))

/-- `olen`: the length of the payload of a plaintext of `len` bytes (44_cbc.md R223, R224). -/
def payloadLength (len : Nat) : Nat := 8 + 8 * (len / 8 + 1)

/-- C_CBC_ENC (44_cbc.md R224). -/
def execCCbcEnc (s : State) : Host.Outcome State Fault Refusal :=
  let olen := payloadLength s.len
  command
    [(s.ks.ksvalid && s.prng.pvalid, .eState),
     (inRange s.src s.len && inRange s.dst olen, .eAddr)]
    (fun s =>
      let iv := s.prng.makeIV
      { s.memWrite s.dst (cbcEncrypt s.ks iv.1 (s.memRead s.src s.len)) with
        prng := iv.2, res0 := BitVec.ofNat 32 olen }) s

/-- The plaintext of the payload that C_CBC_DEC reads; `none` is E_PADDING (44_cbc.md R227, R228). -/
def State.cbcPlaintext (s : State) : Option (List Byte) :=
  cbcDecrypt s.ks (s.memRead s.src s.len)

/-- C_CBC_DEC: the padding is the fifth check, made before anything is written (44_cbc.md R228). -/
def execCCbcDec (s : State) : Host.Outcome State Fault Refusal :=
  match firstFailure
    [(s.ks.ksvalid, .eState),
     (decide (16 ≤ s.len), .eShort),
     (decide (s.len % 8 = 0), .eLength),
     (inRange s.src s.len && inRange s.dst (s.len - 8), .eAddr)] with
  | some e => failWith e s
  | none =>
    match s.cbcPlaintext with
    | none => failWith .ePadding s
    | some p => succeed { s.memWrite s.dst p with res0 := BitVec.ofNat 32 p.length }

end Sys2Proof.Machine
end

