-- ==== Sys2Proof/Machine/Hash.lean ====
section
/-! DEFINITION. The Hash Engine and its commands (41_hash.md). The tables are the spec's own, which it checked
against the two digests of its source (R156): TESTED; log 12. -/

namespace Sys2Proof.Machine

/-- `Mix(i, x, y, z)`: the mixing function of the round of step `i` (41_hash.md R152). -/
def hashMix (i : Nat) (x y z : Word) : Word :=
  if i < 16 then (x &&& y) ||| (~~~x &&& z)
  else if i < 32 then (x &&& z) ||| (y &&& ~~~z)
  else if i < 48 then x ^^^ y ^^^ z
  else y ^^^ (x ||| ~~~z)

/-- The additive constants of round 0 (41_hash.md R153). -/
def hashConstants0 : List Word :=
  [0xD76AA478, 0xE8C7B756, 0x242070DB, 0xC1BDCEEE,
   0xF57C0FAF, 0x4787C62A, 0xA8304613, 0xFD469501,
   0x698098D8, 0x8B44F7AF, 0xFFFF5BB1, 0x895CD7BE,
   0x6B901122, 0xFD987193, 0xA679438E, 0x49B40821]

/-- The additive constants of round 1 (41_hash.md R153). -/
def hashConstants1 : List Word :=
  [0xF61E2562, 0xC040B340, 0x265E5A51, 0xE9B6C7AA,
   0xD62F105D, 0x02441453, 0xD8A1E681, 0xE7D3FBC8,
   0x21E1CDE6, 0xC33707D6, 0xF4D50D87, 0x455A14ED,
   0xA9E3E905, 0xFCEFA3F8, 0x676F02D9, 0x8D2A4C8A]

/-- The additive constants of round 2 (41_hash.md R153). -/
def hashConstants2 : List Word :=
  [0xFFFA3942, 0x8771F681, 0x6D9D6122, 0xFDE5380C,
   0xA4BEEA44, 0x4BDECFA9, 0xF6BB4B60, 0xBEBFBC70,
   0x289B7EC6, 0xEAA127FA, 0xD4EF3085, 0x04881D05,
   0xD9D4D039, 0xE6DB99E5, 0x1FA27CF8, 0xC4AC5665]

/-- The additive constants of round 3 (41_hash.md R153). -/
def hashConstants3 : List Word :=
  [0xF4292244, 0x432AFF97, 0xAB9423A7, 0xFC93A039,
   0x655B59C3, 0x8F0CCC92, 0xFFEFF47D, 0x85845DD1,
   0x6FA87E4F, 0xFE2CE6E0, 0xA3014314, 0x4E0811A1,
   0xF7537E82, 0xBD3AF235, 0x2AD7D2BB, 0xEB86D391]

/-- `Kt[0..63]` (41_hash.md R153). -/
def hashConstants : List Word :=
  hashConstants0 ++ hashConstants1 ++ hashConstants2 ++ hashConstants3

/-- `Kt[i]` for `i` in 0..63 (R153). -/
def hashConstant (i : Nat) : Word := hashConstants.getD i 0

/-- `g(i)`: the message word of step `i` (41_hash.md R154). -/
def hashWordIndex (i : Nat) : Nat :=
  if i < 16 then i
  else if i < 32 then (5 * i + 1) % 16
  else if i < 48 then (3 * i + 5) % 16
  else (7 * i) % 16

/-- The rotation amounts of the round of step `i`, by `i mod 4` (41_hash.md R155). -/
def hashShiftRow (i : Nat) : List Nat :=
  if i < 16 then [7, 12, 17, 22]
  else if i < 32 then [5, 9, 14, 20]
  else if i < 48 then [4, 11, 16, 23]
  else [6, 10, 15, 21]

/-- `Sh[i]` (R155). -/
def hashShift (i : Nat) : Nat := (hashShiftRow i).getD (i % 4) 0

/-- The four working registers `a, b, c, d` of a compression (41_hash.md R160). -/
structure HashWork where
  a : Word
  b : Word
  c : Word
  d : Word
  deriving DecidableEq, Repr

/-- The message words `w[0..15]` of a block (41_hash.md R160). -/
def blockWords (blk : List Byte) : List Word :=
  (List.range 16).map (fun k => wordOf ((blk.drop (4 * k)).take 4))

/-- Step `i` of a compression (41_hash.md R160). -/
def hashStep (w : List Word) (x : HashWork) (i : Nat) : HashWork :=
  let f := hashMix i x.b x.c x.d + x.a + hashConstant i + w.getD (hashWordIndex i) 0
  { a := x.d, d := x.c, c := x.b, b := x.b + rotl32 f (hashShift i) }

/-- The 64 steps over the message words `w` (41_hash.md R160). Irreducible, so that comparing two states
never runs a compression: unfold it by name where its value is wanted. -/
@[irreducible] def hashSteps (w : List Word) (x : HashWork) : HashWork :=
  (List.range 64).foldl (hashStep w) x

/-- The working registers added back into the running state (41_hash.md R160). -/
def HashEngine.addBack (h : HashEngine) (x : HashWork) : HashEngine :=
  { h with ha := h.ha + x.a, hb := h.hb + x.b, hc := h.hc + x.c, hd := h.hd + x.d }

/-- `Compress(blk)`: the 64 steps, then the working registers added back (41_hash.md R160). -/
def HashEngine.compress (h : HashEngine) (blk : List Byte) : HashEngine :=
  h.addBack (hashSteps (blockWords blk) ⟨h.ha, h.hb, h.hc, h.hd⟩)

/-- `HashInit()` (41_hash.md R150, R151). HBLK then holds no information (10_state.md R42). -/
def HashEngine.init : HashEngine :=
  { ha := 0x67452301, hb := 0xEFCDAB89, hc := 0x98BADCFE, hd := 0x10325476,
    hlen := 0, hblk := [], hfin := false }

/-- `HBLK[i] <- b`: the bytes before `i` are kept, and those after it hold no information (10_state.md R42).
Where a byte before `i` is not held, which no run from reset reaches, it is a free value (log 7). -/
def writeBlockByte (blk : List Byte) (i : Nat) (b : Byte) : List Byte :=
  blk.take i ++ (List.range' blk.length (i - blk.length)).map Config.hashBlockFree ++ [b]

/-- A byte put into HBLK at `HLEN mod 64`, and counted in HLEN mod 2^64 (41_hash.md R162). -/
def HashEngine.buffer (h : HashEngine) (b : Byte) : HashEngine :=
  { h with hblk := writeBlockByte h.hblk (h.hlen.toNat % Config.hblock) b, hlen := h.hlen + 1 }

/-- `Compress(HBLK[0..64))`, after which no byte waits (41_hash.md R162). -/
def HashEngine.flush (h : HashEngine) : HashEngine :=
  { h.compress h.hblk with hblk := [] }

/-- One round of `Absorb` (41_hash.md R162): the block is compressed when it is full. -/
def HashEngine.absorbByte (h : HashEngine) (b : Byte) : HashEngine :=
  if (h.buffer b).hlen.toNat % Config.hblock = 0 then (h.buffer b).flush else h.buffer b

/-- `Absorb(s)` (41_hash.md R162). -/
def HashEngine.absorb (h : HashEngine) (s : List Byte) : HashEngine :=
  s.foldl HashEngine.absorbByte h

/-- `PadBytes(L)` (41_hash.md R163). The number of zero bytes is `(55 − L) mod 64`, taken in 0..63. -/
def padBytes (l : Nat) : List Byte :=
  [0x80] ++ List.replicate ((55 + (64 - l % 64)) % 64) 0x00 ++ le64 (BitVec.ofNat 64 (8 * l))

/-- `HashFinal()`: the padding is absorbed, HLEN is restored (41_hash.md R164). -/
def HashEngine.final (h : HashEngine) : HashEngine :=
  { h.absorb (padBytes h.hlen.toNat) with hlen := h.hlen, hfin := true }

/-- `Hash(s)`: the engine after a fresh hash of `s` (41_hash.md R165). It does not depend on what the
engine held. -/
def hashOf (s : List Byte) : HashEngine :=
  (HashEngine.init.absorb s).final

/-- `Digest()` (41_hash.md R168). -/
def HashEngine.digest (h : HashEngine) : List Byte :=
  le32 h.ha ++ le32 h.hb ++ le32 h.hc ++ le32 h.hd

/-- H_INIT (41_hash.md R171). -/
def execHInit (s : State) : Host.Outcome State Fault Refusal :=
  command [] (fun s => { s with hash := HashEngine.init }) s

/-- H_UPDATE (41_hash.md R172). -/
def execHUpdate (s : State) : Host.Outcome State Fault Refusal :=
  command [(!s.hash.hfin, .eState), (inRange s.src s.len, .eAddr)]
    (fun s => { s with hash := s.hash.absorb (s.memRead s.src s.len) }) s

/-- H_FINAL (41_hash.md R173). -/
def execHFinal (s : State) : Host.Outcome State Fault Refusal :=
  command [(!s.hash.hfin, .eState)] (fun s => { s with hash := s.hash.final }) s

/-- H_DIGEST (41_hash.md R174). -/
def execHDigest (s : State) : Host.Outcome State Fault Refusal :=
  command [(inRange s.src s.len, .eAddr)]
    (fun s => { s with hash := hashOf (s.memRead s.src s.len) }) s

/-- The four digest words equal the expected ones (41_hash.md R175, 10_state.md R45). -/
def State.digestMatches (s : State) (h : HashEngine) : Bool :=
  decide (h.ha = s.hexp0 ∧ h.hb = s.hexp1 ∧ h.hc = s.hexp2 ∧ h.hd = s.hexp3)

/-- H_VERIFY (41_hash.md R175). -/
def execHVerify (s : State) : Host.Outcome State Fault Refusal :=
  command [(inRange s.src s.len, .eAddr)]
    (fun s =>
      let h := hashOf (s.memRead s.src s.len)
      { s with hash := h, res0 := if s.digestMatches h then 1 else 0 }) s

end Sys2Proof.Machine
end

