-- ==== Sys2Proof/Machine/Kdf.lean ====
section
/-! DEFINITION. Key Derivation (42_kdf.md). -/

namespace Sys2Proof.Machine

/-- How many key bytes a request for `n` yields: `min(n, 16)` (42_kdf.md R190). -/
def derivedCount (n : Byte) : Nat := min n.toNat Config.digestBytes

/-- K_DERIVE (42_kdf.md R190): KEY bytes `0..k−1` are the first digest bytes, the others keep their value. -/
def execKDerive (n : Byte) (s : State) : Host.Outcome State Fault Refusal :=
  command [(inRange s.src s.len, .eAddr)]
    (fun s =>
      let h := hashOf (s.memRead s.src s.len)
      let k := derivedCount n
      { s.setKeyBytes (h.digest.take k ++ s.keyBytes.drop k) with
        hash := h, res0 := BitVec.ofNat 32 k }) s

end Sys2Proof.Machine
end

