-- ==== Sys2Proof/Machine/System.lean ====
section
/-! DEFINITION. The system commands NOP, CLRERR and SRESET (45_system.md), and hardware reset
(70_reset_and_hazards.md R280). -/

namespace Sys2Proof.Machine

/-- Every register at its reset value, HIST empty, no schedule, BUF unchanged (45_system.md R242, 10_state.md
R60). The model's own fields are not registers and stay. -/
def State.softReset (s : State) : State :=
  { State.reset with buf := s.buf, resets := s.resets, port := s.port, resp := s.resp }

/-- Hardware reset: the reset state, with new unspecified contents of BUF (70_reset_and_hazards.md R280,
20_memory.md R72). The inputs that still wait stay; no access has been answered since (log 5). -/
def State.hardwareReset (s : State) : State :=
  { State.reset with resets := s.resets + 1, port := s.port }

/-- NOP: no check, no operation (45_system.md R240). -/
def execNop (s : State) : Host.Outcome State Fault Refusal :=
  command [] id s

/-- CLRERR: `STICKY <- 0` (45_system.md R241). -/
def execClrerr (s : State) : Host.Outcome State Fault Refusal :=
  command [] (fun s => { s with sticky := false }) s

/-- SRESET (45_system.md R242). -/
def execSreset (s : State) : Host.Outcome State Fault Refusal :=
  command [] State.softReset s

end Sys2Proof.Machine
end

