-- ==== Sys2Proof/Machine/Dispatch.lean ====
section
/-! DEFINITION. One arm per command: its meaning. -/

namespace Sys2Proof.Machine

def exec (i : Instr) (s : State) : Host.Outcome State Fault Refusal :=
  match i with
  | .nop => Sys2Proof.Machine.execNop s
  | .clrerr => Sys2Proof.Machine.execClrerr s
  | .sreset => Sys2Proof.Machine.execSreset s
  | .pInit => Sys2Proof.Machine.execPInit s
  | .pReset => Sys2Proof.Machine.execPReset s
  | .pNext => Sys2Proof.Machine.execPNext s
  | .pSeq => Sys2Proof.Machine.execPSeq s
  | .pPeriod => Sys2Proof.Machine.execPPeriod s
  | .hInit => Sys2Proof.Machine.execHInit s
  | .hUpdate => Sys2Proof.Machine.execHUpdate s
  | .hFinal => Sys2Proof.Machine.execHFinal s
  | .hDigest => Sys2Proof.Machine.execHDigest s
  | .hVerify => Sys2Proof.Machine.execHVerify s
  | .kDerive n => Sys2Proof.Machine.execKDerive n s
  | .cSetkey w b r => Sys2Proof.Machine.execCSetkey w b r s
  | .cEcbEnc => Sys2Proof.Machine.execCEcbEnc s
  | .cEcbDec => Sys2Proof.Machine.execCEcbDec s
  | .cCbcEnc => Sys2Proof.Machine.execCCbcEnc s
  | .cCbcDec => Sys2Proof.Machine.execCCbcDec s

end Sys2Proof.Machine
end

