-- ==== Sys2Proof/Machine/Command.lean ====
section
/-! DEFINITION. Issuing a command: decoding the word written to CMD and running what it encodes. -/

namespace Sys2Proof.Machine

/-- The command that the word `cw` issues (10_state.md R22, 30_encoding.md R105). A word that decodes to
`illegal` is a failed command with E_ILLEGAL (30_encoding.md R106). -/
def issue (cw : Word) (s : State) : Host.Outcome State Fault Refusal :=
  match decode cw with
  | .ok i => exec i s
  | .error _ => failWith .eIllegal s

end Sys2Proof.Machine
end

