-- ==== Sys2Proof/Machine/HostPort.lean ====
section
/-! DEFINITION. The host port (20_memory.md R71, R80 to R84, R91): address decoding, register reads and
writes, BUF accesses. -/

namespace Sys2Proof.Machine

/-- The thirty registers (10_state.md R21). -/
def allRegs : List Reg :=
  [.cmd, .status, .errcode, .arg0, .arg1, .arg2, .res0, .res1,
   .pm, .pa, .pc, .px0, .px, .phcnt,
   .ha, .hb, .hc, .hd, .hlenl, .hlenh,
   .hexp0, .hexp1, .hexp2, .hexp3, .key0, .key1, .key2, .key3, .cr, .cb]

/-- The host offset of a register (10_state.md R21). -/
def Reg.offset : Reg → Nat
  | .cmd => 0x000
  | .status => 0x004
  | .errcode => 0x008
  | .arg0 => 0x00C
  | .arg1 => 0x010
  | .arg2 => 0x014
  | .res0 => 0x018
  | .res1 => 0x01C
  | .pm => 0x020
  | .pa => 0x024
  | .pc => 0x028
  | .px0 => 0x02C
  | .px => 0x030
  | .phcnt => 0x034
  | .ha => 0x040
  | .hb => 0x044
  | .hc => 0x048
  | .hd => 0x04C
  | .hlenl => 0x050
  | .hlenh => 0x054
  | .hexp0 => 0x060
  | .hexp1 => 0x064
  | .hexp2 => 0x068
  | .hexp3 => 0x06C
  | .key0 => 0x070
  | .key1 => 0x074
  | .key2 => 0x078
  | .key3 => 0x07C
  | .cr => 0x080
  | .cb => 0x084

/-- The register at a host offset, if the offset is one of the thirty (10_state.md R21). -/
def regAt (off : Nat) : Option Reg := allRegs.find? (fun r => r.offset == off)

/-- `RegRead`: the register's current value; CMD reads 0, STATUS is the live flags (20_memory.md R81, R83;
10_state.md R22, R30, R32, R41, R49). -/
def State.readReg (s : State) : Reg → Word
  | .cmd => 0
  | .status => s.status
  | .errcode => s.errcode.zeroExtend 32
  | .arg0 => s.arg0
  | .arg1 => s.arg1
  | .arg2 => s.arg2
  | .res0 => s.res0
  | .res1 => s.res1
  | .pm => s.prng.pm
  | .pa => s.prng.pa
  | .pc => s.prng.pc
  | .px0 => s.prng.px0
  | .px => s.prng.px
  | .phcnt => s.prng.phcnt
  | .ha => s.hash.ha
  | .hb => s.hash.hb
  | .hc => s.hash.hc
  | .hd => s.hash.hd
  | .hlenl => s.hash.hlen.extractLsb' 0 32
  | .hlenh => s.hash.hlen.extractLsb' 32 32
  | .hexp0 => s.hexp0
  | .hexp1 => s.hexp1
  | .hexp2 => s.hexp2
  | .hexp3 => s.hexp3
  | .key0 => s.key0
  | .key1 => s.key1
  | .key2 => s.key2
  | .key3 => s.key3
  | .cr => s.ks.cr.zeroExtend 32
  | .cb => s.ks.cb.zeroExtend 32

/-- `RegWrite` to a register other than CMD: an RW register stores the value, PM, PA, PC and PX0 also clear
PVALID, a read-only register is unchanged (20_memory.md R81, R83; 10_state.md R34). CMD stores nothing
(10_state.md R22); the command that a write to it issues is `issue`'s. -/
def State.writeReg (s : State) (r : Reg) (v : Word) : State :=
  match r with
  | .arg0 => { s with arg0 := v }
  | .arg1 => { s with arg1 := v }
  | .arg2 => { s with arg2 := v }
  | .pm => { s with prng := { s.prng with pm := v, pvalid := false } }
  | .pa => { s with prng := { s.prng with pa := v, pvalid := false } }
  | .pc => { s with prng := { s.prng with pc := v, pvalid := false } }
  | .px0 => { s with prng := { s.prng with px0 := v, pvalid := false } }
  | .hexp0 => { s with hexp0 := v }
  | .hexp1 => { s with hexp1 := v }
  | .hexp2 => { s with hexp2 := v }
  | .hexp3 => { s with hexp3 := v }
  | .key0 => { s with key0 := v }
  | .key1 => { s with key1 := v }
  | .key2 => { s with key2 := v }
  | .key3 => { s with key3 := v }
  | .cmd | .status | .errcode | .res0 | .res1 | .px | .phcnt
  | .ha | .hb | .hc | .hd | .hlenl | .hlenh | .cr | .cb => s

/-- The BUF index of a host offset at which an access of `n` bytes fits in BUF (20_memory.md R71, R82, R91). -/
def bufIndex (off n : Nat) : Option Nat :=
  if Config.bufBase ≤ off ∧ off - Config.bufBase + n ≤ Config.bufSize
  then some (off - Config.bufBase) else none

/-- The BUF index of an aligned 32-bit access (R82). -/
def bufIndex32 (off : Nat) : Option Nat :=
  (bufIndex off 4).filter (fun k => k % 4 == 0)

/-- Address decoding: the transaction that an access is, or `none` for HostErr (20_memory.md R82, R84, R91). -/
def Txn.route : Txn → Option PortOp
  | .read8 off => (bufIndex off 1).map .bufRead8
  | .write8 off v => (bufIndex off 1).map (.bufWrite8 · v)
  | .read32 off =>
    if off < Config.bufBase then (regAt off).map .regRead
    else (bufIndex32 off).map .bufRead32
  | .write32 off v =>
    if off < Config.bufBase then (regAt off).map (.regWrite · v)
    else (bufIndex32 off).map (.bufWrite32 · v)
  | .otherWidth _ => none

/-- The machine with the response `r` on its port. -/
def State.respond (s : State) (r : Response) : State := { s with resp := some r }

/-- A transaction that issues no command (20_memory.md R80, R81): reads have no side effect. -/
def State.transact (s : State) : PortOp → State
  | .regRead r => s.respond (.data32 (s.readReg r))
  | .regWrite r v => (s.writeReg r v).respond .done
  | .bufRead8 k => s.respond (.data8 (s.readByte k))
  | .bufWrite8 k v => (s.writeByte k v).respond .done
  | .bufRead32 k => s.respond (.data32 (wordOf (s.memRead k 4)))
  | .bufWrite32 k v => (s.memWrite k (le32 v)).respond .done

end Sys2Proof.Machine
end

