-- ==== Sys2Proof/Machine/Step.lean ====
section
/-! DEFINITION. One step: the next input is taken and handled to its end (20_memory.md R86, R87). -/

namespace Sys2Proof.Machine

/-- One access on the host port (20_memory.md R80, R84). A 32-bit write to CMD completes after the command
it issued (R87); its response is recorded first, and no command changes it. -/
def access (t : Txn) (s : State) : Host.Outcome State Fault Refusal :=
  match t.route with
  | none => .next (s.respond .hostErr)
  | some (.regWrite .cmd cw) => issue cw (s.respond .done)
  | some op => .next (s.transact op)

/-- One step. With no input waiting the block holds its state (60_exceptions.md R272; log 2). -/
def step (s : State) : Host.Outcome State Fault Refusal :=
  match s.port with
  | [] => .next s
  | .hwReset :: rest => .next { s with port := rest }.hardwareReset
  | .txn t :: rest => access t { s with port := rest }

/-- The machine whose next input is the write of a command word to CMD (30_encoding.md R100; log 1). -/
def State.withFetchWord (s : State) (nbits w : Nat) : State :=
  { s with port := .txn (.write32 0x000 (BitVec.ofNat 32 (w % 2 ^ nbits))) :: s.port }

end Sys2Proof.Machine
end

