-- ==== Sys2Proof/Machine/Assembler.lean ====
section
/-! DEFINITION. The host-transaction assembly (30_encoding.md R115) and its pseudo-instructions (R116): each
line is a list of accesses on the host port. It has no meaning of its own in the hardware (92_eei_decisions.md
D34); it is how a program is written down. -/

namespace Sys2Proof.Machine

/-- A line of assembly: a transaction, a command, or a pseudo-instruction. -/
inductive AsmLine where
  | wr (r : Reg) (v : Word)
  | rd (r : Reg)
  | bw8 (k : Nat) (v : Byte)
  | bw32 (k : Nat) (v : Word)
  | br8 (k : Nat)
  | br32 (k : Nat)
  | cmd (i : Instr)
  | load (k : Nat) (bytes : List Byte)
  | lcg (m a c x0 : Word)
  | hash (k len : Word)
  | setkeyPw (k len : Word) (r b : Byte)
  | encrypt (src len dst : Word)
  | decrypt (src len dst : Word)
  /-- `expect REG = v`: the transaction is `rd REG`; the value is a test annotation. -/
  | expect (r : Reg) (v : Word)
  deriving DecidableEq, Repr

/-- `wr REG, v` (R115). -/
def asmWr (r : Reg) (v : Word) : Txn := .write32 r.offset v

/-- `cmd MNEMONIC ...` (R115). -/
def asmCmd (i : Instr) : Txn := .write32 0x000 (encode i)

/-- `load k, {b0 b1 ...}`: one `bw8` per byte (R116). -/
def asmLoad : Nat → List Byte → List Txn
  | _, [] => []
  | k, b :: bs => .write8 (Config.bufBase + k) b :: asmLoad (k + 1) bs

/-- The accesses of one line (R115, R116). -/
def AsmLine.expand : AsmLine → List Txn
  | .wr r v => [asmWr r v]
  | .rd r => [.read32 r.offset]
  | .bw8 k v => [.write8 (Config.bufBase + k) v]
  | .bw32 k v => [.write32 (Config.bufBase + k) v]
  | .br8 k => [.read8 (Config.bufBase + k)]
  | .br32 k => [.read32 (Config.bufBase + k)]
  | .cmd i => [asmCmd i]
  | .load k bytes => asmLoad k bytes
  | .lcg m a c x0 => [asmWr .pm m, asmWr .pa a, asmWr .pc c, asmWr .px0 x0, asmCmd .pInit]
  | .hash k len => [asmWr .arg0 k, asmWr .arg1 len, asmCmd .hDigest]
  | .setkeyPw k len r b =>
    [asmWr .arg0 k, asmWr .arg1 len, asmCmd (.kDerive b), asmCmd (.cSetkey 32 b r)]
  | .encrypt src len dst =>
    [asmWr .arg0 src, asmWr .arg1 len, asmWr .arg2 dst, asmCmd .cCbcEnc]
  | .decrypt src len dst =>
    [asmWr .arg0 src, asmWr .arg1 len, asmWr .arg2 dst, asmCmd .cCbcDec]
  | .expect r _ => [.read32 r.offset]

/-- The inputs that a program is, one after another (R115). -/
def assemble (program : List AsmLine) : List Input :=
  (program.flatMap AsmLine.expand).map .txn

end Sys2Proof.Machine
end

