-- ==== Sys2Proof/Safety.lean ====
section
/-! DEFINITION. What counts as a good state and a safe run, in the terms the statements use: the invariant of
the machine, the record of errors, the BUF ranges and the success of a command, and the spec's own equations of
the generator, the cipher and the chained mode. -/

namespace Sys2Proof.Machine

/-- The invariants of the PRNG Engine. -/
structure Prng.Inv (g : Prng) : Prop where
  /-- A valid generator's parameters are in range, and so is its current value (10_state.md R37). -/
  inRange : g.pvalid = true →
    0 < g.pm ∧ g.pa < g.pm ∧ g.pc < g.pm ∧ g.px0 < g.pm ∧ g.px < g.pm
  /-- PHCNT is the length of HIST mod 2^32 (10_state.md R39). -/
  counted : g.phcnt = BitVec.ofNat 32 g.hist.length
  /-- Every value emitted lies in `[0, m)` (40_prng.md R140). -/
  emitted : g.pvalid = true → ∀ v ∈ g.hist, v < g.pm

/-- The invariants of the Hash Engine. -/
structure HashEngine.Inv (h : HashEngine) : Prop where
  /-- Before finalization `HLEN mod 64` bytes wait in HBLK (10_state.md R41, R42). -/
  fill : h.hfin = false → h.hblk.length = h.hlen.toNat % 64
  /-- After finalization HBLK holds no information (10_state.md R42, 41_hash.md R164). -/
  finalized : h.hfin = true → h.hblk = []

/-- The invariants of the key schedule. -/
structure KeySchedule.Inv (k : KeySchedule) : Prop where
  /-- A valid schedule has `2·(CR+1)` words and an accepted key length (10_state.md R48, R49; 43_cipher.md
  R200). -/
  valid : k.ksvalid = true →
    k.s.length = 2 * (k.cr.toNat + 1) ∧ 1 ≤ k.cb.toNat ∧ k.cb.toNat ≤ 16
  /-- Without one CR and CB read 0 (10_state.md R49), and no word of S holds a schedule (R48). -/
  absent : k.ksvalid = false → k.cr = 0 ∧ k.cb = 0 ∧ k.s = []

/-- The invariant of the machine. -/
structure State.Inv (s : State) : Prop where
  /-- BUF is in its canonical form. -/
  memory : s.buf.wf
  /-- `ERR = 1` exactly when `ERRCODE ≠ 0` (10_state.md R32). -/
  error : s.err = true ↔ s.errcode ≠ 0
  /-- ERRCODE holds a code of the table (60_exceptions.md R250). -/
  code : s.errcode.toNat ≤ 10
  /-- A command that failed last has set STICKY, and nothing has cleared it since (10_state.md R30). -/
  stuck : s.err = true → s.sticky = true
  /-- The PRNG Engine's invariants. -/
  prng : s.prng.Inv
  /-- The Hash Engine's invariants. -/
  hash : s.hash.Inv
  /-- The key schedule's invariants. -/
  schedule : s.ks.Inv

/-- No error has been recorded since STICKY was last cleared (60_exceptions.md R264). -/
def State.NoErrorRecorded (s : State) : Prop := s.sticky = false

/-- Address `a` lies in the `n` bytes from `start` on. -/
def inBytes (start n a : Nat) : Prop := start ≤ a ∧ a < start + n

/-- The BUF bytes that a command reads, as start and length (20_memory.md R78). -/
def readRange (i : Instr) (s : State) : Nat × Nat :=
  match i with
  | .hUpdate | .hDigest | .hVerify | .kDerive _ | .cCbcEnc | .cCbcDec => (s.src, s.len)
  | .cEcbEnc | .cEcbDec => (s.src, 8)
  | .nop | .clrerr | .sreset | .pInit | .pReset | .pNext | .pSeq | .pPeriod
  | .hInit | .hFinal | .cSetkey _ _ _ => (0, 0)

/-- The BUF bytes that a successful command writes, as start and length (20_memory.md R78). C_CBC_DEC writes
as many as the plaintext has. -/
def writeRange (i : Instr) (s : State) : Nat × Nat :=
  match i with
  | .pSeq => (s.dst, 4 * s.arg0.toNat)
  | .cEcbEnc | .cEcbDec => (s.dst, 8)
  | .cCbcEnc => (s.dst, 8 + 8 * (s.len / 8 + 1))
  | .cCbcDec => (s.dst, (s.cbcPlaintext.getD []).length)
  | .nop | .clrerr | .sreset | .pInit | .pReset | .pNext | .pPeriod
  | .hInit | .hUpdate | .hFinal | .hDigest | .hVerify | .kDerive _ | .cSetkey _ _ _ => (0, 0)

/-- The reset column of the register table (10_state.md R21). -/
def Reg.resetValue : Reg → Word
  | .ha => 0x67452301
  | .hb => 0xEFCDAB89
  | .hc => 0x98BADCFE
  | .hd => 0x10325476
  | .cmd | .status | .errcode | .arg0 | .arg1 | .arg2 | .res0 | .res1
  | .pm | .pa | .pc | .px0 | .px | .phcnt | .hlenl | .hlenh
  | .hexp0 | .hexp1 | .hexp2 | .hexp3 | .key0 | .key1 | .key2 | .key3 | .cr | .cb => 0

/-- The registers the host may write whose write has no effect but to store the value (10_state.md R21, R34). -/
def plainRegs : List Reg :=
  [.arg0, .arg1, .arg2, .hexp0, .hexp1, .hexp2, .hexp3, .key0, .key1, .key2, .key3]

/-- The four parameter registers of the generator (10_state.md R33, R34). -/
def paramRegs : List Reg := [.pm, .pa, .pc, .px0]

/-- The read-only registers (20_memory.md R83). -/
def readOnlyRegs : List Reg :=
  [.status, .errcode, .res0, .res1, .px, .phcnt, .ha, .hb, .hc, .hd, .hlenl, .hlenh, .cr, .cb]

/-- The offset is one of the thirty of the register table: 0x000 to 0x084 in steps of 4, but for the gaps
0x038, 0x03C, 0x058, 0x05C (10_state.md R21, 20_memory.md R91). -/
def isRegOffset (off : Nat) : Prop :=
  off ≤ 0x084 ∧ off % 4 = 0 ∧ off ≠ 0x038 ∧ off ≠ 0x03C ∧ off ≠ 0x058 ∧ off ≠ 0x05C

/-- The access is one the host port accepts: 32 bits at a register, 8 bits anywhere in BUF, 32 bits at a
multiple of 4 in BUF (20_memory.md R80, R82, R84, R91). -/
def Txn.accepted : Txn → Prop
  | .read8 off => 0x10000 ≤ off ∧ off < 0x20000
  | .write8 off _ => 0x10000 ≤ off ∧ off < 0x20000
  | .read32 off => isRegOffset off ∨ (0x10000 ≤ off ∧ off < 0x20000 ∧ off % 4 = 0)
  | .write32 off _ => isRegOffset off ∨ (0x10000 ≤ off ∧ off < 0x20000 ∧ off % 4 = 0)
  | .otherWidth _ => False

/-- The errors that a command can report (60_exceptions.md R250, the column "raised by"). -/
def errorsOf : Instr → List ErrCode
  | .nop | .clrerr | .sreset | .hInit => []
  | .pInit => [.ePrngParam]
  | .pReset | .pNext | .pPeriod | .hFinal => [.eState]
  | .pSeq => [.eCount, .eState, .eAddr]
  | .hUpdate | .cEcbEnc | .cEcbDec | .cCbcEnc => [.eState, .eAddr]
  | .hDigest | .hVerify | .kDerive _ => [.eAddr]
  | .cSetkey _ _ _ => [.eWordsize, .eKeylen]
  | .cCbcDec => [.eState, .eShort, .eLength, .eAddr, .ePadding]

/-- The engine state that a command requires (60_exceptions.md R259). -/
def engineReady (i : Instr) (s : State) : Prop :=
  match i with
  | .pReset | .pNext | .pSeq | .pPeriod => s.prng.pvalid = true
  | .hUpdate | .hFinal => s.hash.hfin = false
  | .cEcbEnc | .cEcbDec | .cCbcDec => s.ks.ksvalid = true
  | .cCbcEnc => s.ks.ksvalid = true ∧ s.prng.pvalid = true
  | .nop | .clrerr | .sreset | .pInit | .hInit | .hDigest | .hVerify | .kDerive _
  | .cSetkey _ _ _ => True

/-- The checks of a command all hold: the conditions under which it succeeds (the Checks of its own rule in
40_prng.md to 45_system.md; 60_exceptions.md R255). -/
def checksHold (i : Instr) (s : State) : Prop :=
  match i with
  | .nop | .clrerr | .sreset | .hInit => True
  | .pInit =>
    0 < s.prng.pm.toNat ∧ s.prng.pa.toNat < s.prng.pm.toNat ∧
      s.prng.pc.toNat < s.prng.pm.toNat ∧ s.prng.px0.toNat < s.prng.pm.toNat
  | .pReset | .pNext | .pPeriod => s.prng.pvalid = true
  | .pSeq =>
    1 ≤ s.arg0.toNat ∧ s.prng.pvalid = true ∧ s.arg2.toNat + 4 * s.arg0.toNat ≤ 65536
  | .hUpdate => s.hash.hfin = false ∧ s.arg0.toNat + s.arg1.toNat ≤ 65536
  | .hFinal => s.hash.hfin = false
  | .hDigest | .hVerify | .kDerive _ => s.arg0.toNat + s.arg1.toNat ≤ 65536
  | .cSetkey w b _ => w.toNat = 32 ∧ 1 ≤ b.toNat ∧ b.toNat ≤ 16
  | .cEcbEnc | .cEcbDec =>
    s.ks.ksvalid = true ∧ s.arg0.toNat + 8 ≤ 65536 ∧ s.arg2.toNat + 8 ≤ 65536
  | .cCbcEnc =>
    s.ks.ksvalid = true ∧ s.prng.pvalid = true ∧ s.arg0.toNat + s.arg1.toNat ≤ 65536 ∧
      s.arg2.toNat + (8 + 8 * (s.arg1.toNat / 8 + 1)) ≤ 65536
  | .cCbcDec =>
    s.ks.ksvalid = true ∧ 16 ≤ s.arg1.toNat ∧ s.arg1.toNat % 8 = 0 ∧
      s.arg0.toNat + s.arg1.toNat ≤ 65536 ∧ s.arg2.toNat + (s.arg1.toNat - 8) ≤ 65536 ∧
      cbcDecrypt s.ks (s.memRead s.arg0.toNat s.arg1.toNat) ≠ none

/-- `x_k` of a generator: `x_0 = PX0`, `x_(k+1) = (PA·x_k + PC) mod PM`, as numbers (40_prng.md R139). -/
def Prng.orbit (g : Prng) : Nat → Nat
  | 0 => g.px0.toNat
  | k + 1 => (g.pa.toNat * g.orbit k + g.pc.toNat) % g.pm.toNat

/-- The bytes of `s` in consecutive groups of 64 (41_hash.md R165), `n` of them. -/
def groupsOf64 : (n : Nat) → List Byte → List (List Byte)
  | 0, _ => []
  | n + 1, s => s.take 64 :: groupsOf64 n (s.drop 64)

/-- The equations of the mixing rounds, for key words `l0` and a schedule of `t` words (43_cipher.md R202,
R203): `a n`, `b n`, `s n`, `l n` are A, B, S, L before round `n`, and `out` is S after `3·max(t, c)` rounds. -/
def mixesTo (l0 : List Word) (t : Nat) (out : List Word) : Prop :=
  ∃ (a b : Nat → Word) (s l : Nat → List Word),
    a 0 = 0 ∧ b 0 = 0 ∧ l 0 = l0 ∧
    s 0 = (List.range t).map (fun i => BitVec.ofNat 32 (0xB7E15163 + i * 0x9E3779B9)) ∧
    (∀ n,
      a (n + 1) = ((s n).getD (n % t) 0 + a n + b n).rotateLeft 3 ∧
      s (n + 1) = (s n).set (n % t) (a (n + 1)) ∧
      b (n + 1) = ((l n).getD (n % l0.length) 0 + a (n + 1) + b n).rotateLeft
        ((a (n + 1) + b n).toNat % 32) ∧
      l (n + 1) = (l n).set (n % l0.length) (b (n + 1))) ∧
    out = s (3 * max t l0.length)

/-- The equations of the encryption rounds (43_cipher.md R205): `a n`, `b n` are A and B after round `n`, row 0
being the initial addition, and `y` is the block that `x` encrypts to in `CR` rounds. -/
def encryptsTo (k : KeySchedule) (x y : List Byte) : Prop :=
  ∃ a b : Nat → Word,
    a 0 = wordOf (x.take 4) + k.s.getD 0 0 ∧ b 0 = wordOf (x.drop 4) + k.s.getD 1 0 ∧
    (∀ n, n < k.cr.toNat →
      a (n + 1) = (a n ^^^ b n).rotateLeft ((b n).toNat % 32) + k.s.getD (2 * (n + 1)) 0 ∧
      b (n + 1) = (b n ^^^ a (n + 1)).rotateLeft ((a (n + 1)).toNat % 32) +
        k.s.getD (2 * (n + 1) + 1) 0) ∧
    y = le32 (a k.cr.toNat) ++ le32 (b k.cr.toNat)

/-- Block `i` of a string: its bytes `8i` to `8i + 7`. -/
def blockAt (y : List Byte) (i : Nat) : List Byte := (y.drop (8 * i)).take 8

/-- The equations of chained encryption (44_cbc.md R220, R223, R226): the payload `y` of the plaintext `p` is the
encrypted IV, then for each block of the padded plaintext `q` the encryption of that block xor the block
before it, which is the raw IV for the first and the ciphertext block thereafter. -/
def chainsTo (k : KeySchedule) (iv p y : List Byte) : Prop :=
  ∃ q, q = p ++ List.replicate (8 - p.length % 8) (BitVec.ofNat 8 (8 - p.length % 8)) ∧
    y.length = 8 + 8 * (p.length / 8 + 1) ∧ blockAt y 0 = k.encrypt iv ∧
    ∀ i, i < p.length / 8 + 1 →
      blockAt y (i + 1) =
        k.encrypt (List.zipWith (· ^^^ ·) (blockAt q i) (if i = 0 then iv else blockAt y i))

/-- The equations of chained decryption (44_cbc.md R221, R227): each block after the first of the payload `y`,
decrypted, xor the block before it, which is the recovered raw IV for the first and the ciphertext block
thereafter; then the last byte says how many bytes are padding, and `none` is E_PADDING. -/
def unchainsTo (k : KeySchedule) (y : List Byte) (result : Option (List Byte)) : Prop :=
  ∃ q : List Byte, q.length = y.length - 8 ∧
    (∀ i, i < y.length / 8 - 1 →
      blockAt q i = List.zipWith (· ^^^ ·) (k.decrypt (blockAt y (i + 1)))
        (if i = 0 then k.decrypt (blockAt y 0) else blockAt y i)) ∧
    result =
      if 1 ≤ (q.getLastD 0).toNat ∧ (q.getLastD 0).toNat ≤ 8
      then some (q.take (q.length - (q.getLastD 0).toNat)) else none

end Sys2Proof.Machine
end

