-- ==== Sys2Proof/Certificates/Slice0/Obligations.lean ====
section
/-! DEFINITION. The statements for the provers. Each docstring says which rule of spec/ it formalises. -/

open Sys2Proof Sys2Proof.Machine

/-! ### Encoding and decoding -/

/-- Decoding the word of a command gives the command back, every field at every value (30_encoding.md R101,
R102, R103, R105, R115). -/
def Obligations.DecodeOfEncodeIsTheCommand : Prop :=
  ∀ i : Instr, decode (encode i) = .ok i

/-- A word that decodes to a command is the word of that command: no bit is dropped (30_encoding.md R101 to
R105). -/
def Obligations.EncodeOfDecodeIsTheWord : Prop :=
  ∀ (cw : Word) (i : Instr), decode cw = .ok i → encode i = cw

/-- The decoder of R105 and the opcode map of R104 agree on every word, row by row. -/
def Obligations.DecoderAgreesWithOpcodeMap : Prop :=
  (∀ (cw : Word) (i : Instr), decode cw = .ok i →
    ∃ row ∈ opcodeRows, row.mnemonic = i.mnemonic ∧ row.selects cw = true) ∧
  (∀ (cw : Word) (row : OpcodeRow), row ∈ opcodeRows → row.selects cw = true →
    ∃ i, decode cw = .ok i ∧ i.mnemonic = row.mnemonic)

/-- A command word that no row of the opcode map selects fails with E_ILLEGAL (code 1), whatever the state:
its write to CMD completes and changes ERRCODE, ERR and STICKY and nothing else (30_encoding.md R106). Every
word decodes to a command or is illegal, and the illegal ones are those. That an access waits in `port` and is
answered in `resp` is the model's choice (logs 1 and 3), here and in the statements on accesses below. -/
def Obligations.IllegalWordOnlyRecordsTheError : Prop :=
  (∀ cw : Word, (∃ i, decode cw = .ok i) ∨ (∃ e, decode cw = .error e)) ∧
  (∀ cw : Word, commandWordWf cw = false ↔ ∃ e, decode cw = .error e) ∧
  ∀ (cw : Word) (s : State) (rest : List Input),
    commandWordWf cw = false → s.port = .txn (.write32 0x000 cw) :: rest →
    step s = .next { s with port := rest, resp := some .done,
                            errcode := 1, err := true, sticky := true }

/-- Words written out from the formats of 30_encoding.md R101 to R104, one or more per family. -/
def Obligations.WrittenOutWordsDecode : Prop :=
  decode 0x00000001 = .ok .clrerr ∧ decode 0x00000013 = .ok .pSeq ∧
  decode 0x00000024 = .ok .hVerify ∧ decode 0x00080030 = .ok (.kDerive 8) ∧
  decode 0x20100C40 = .ok (.cSetkey 32 16 12) ∧ decode 0x00000042 = .ok .cEcbDec ∧
  decode 0x00000048 = .ok .cCbcEnc ∧ decode 0x00010041 = .error .reservedBitSet ∧
  decode 0x0000004A = .error .unassignedOpcode

/-! ### Steps and the host port -/

/-- A 32-bit write to offset 0x000 whose word decodes to a command runs that command, on the state with the
write taken from the port and its response recorded (10_state.md R22, 30_encoding.md R100). The two fields
`port` and `resp` are the model's own (logs 1 and 3). -/
def Obligations.StepRunsTheIssuedCommand : Prop :=
  ∀ (s : State) (cw : Word) (i : Instr) (rest : List Input),
    s.port = .txn (.write32 0x000 cw) :: rest → decode cw = .ok i →
    step s = exec i { s with port := rest, resp := some .done }

/-- Hardware reset: every register reads its reset value, HIST is empty, and every byte of BUF is the free
value of the new reset, whatever that is (10_state.md R21, R60; 20_memory.md R72; the index of the free
values is the model's, log 5). -/
def Obligations.HardwareResetGivesTheResetState : Prop :=
  ∀ (s : State) (rest : List Input), s.port = .hwReset :: rest →
    ∃ t, step s = .next t ∧ t.port = rest ∧ (∀ r, t.readReg r = r.resetValue) ∧
      t.prng.hist = [] ∧ t.hash.hlen = 0 ∧
      ∀ a, t.readByte a = Config.bufAtReset (s.resets + 1) a

/-- STATUS shows the five flags in bits 0 to 4 and reads 0 above (10_state.md R30). -/
def Obligations.StatusShowsTheFlags : Prop :=
  ∀ s : State,
    (s.readReg .status).getLsbD 0 = s.err ∧ (s.readReg .status).getLsbD 1 = s.sticky ∧
    (s.readReg .status).getLsbD 2 = s.prng.pvalid ∧
    (s.readReg .status).getLsbD 3 = s.ks.ksvalid ∧
    (s.readReg .status).getLsbD 4 = s.hash.hfin ∧
    ∀ i, 5 ≤ i → (s.readReg .status).getLsbD i = false

/-- The thirty registers stand at the offsets of the table, in its order, and a read at each answers what the
table says the register holds and changes nothing (10_state.md R21; 20_memory.md R81). The statements on
register writes below name a register's offset through this one. -/
def Obligations.RegisterReadHasNoSideEffect : Prop :=
  (∀ s : State, ∀ row ∈
    ([(0x000, .cmd, 0), (0x004, .status, s.status), (0x008, .errcode, s.errcode.zeroExtend 32),
      (0x00C, .arg0, s.arg0), (0x010, .arg1, s.arg1), (0x014, .arg2, s.arg2),
      (0x018, .res0, s.res0), (0x01C, .res1, s.res1),
      (0x020, .pm, s.prng.pm), (0x024, .pa, s.prng.pa), (0x028, .pc, s.prng.pc),
      (0x02C, .px0, s.prng.px0), (0x030, .px, s.prng.px), (0x034, .phcnt, s.prng.phcnt),
      (0x040, .ha, s.hash.ha), (0x044, .hb, s.hash.hb), (0x048, .hc, s.hash.hc),
      (0x04C, .hd, s.hash.hd),
      (0x050, .hlenl, s.hash.hlen.extractLsb' 0 32),
      (0x054, .hlenh, s.hash.hlen.extractLsb' 32 32),
      (0x060, .hexp0, s.hexp0), (0x064, .hexp1, s.hexp1), (0x068, .hexp2, s.hexp2),
      (0x06C, .hexp3, s.hexp3),
      (0x070, .key0, s.key0), (0x074, .key1, s.key1), (0x078, .key2, s.key2),
      (0x07C, .key3, s.key3),
      (0x080, .cr, s.ks.cr.zeroExtend 32), (0x084, .cb, s.ks.cb.zeroExtend 32)] :
      List (Nat × Reg × Word)),
    row.2.1.offset = row.1 ∧ s.readReg row.2.1 = row.2.2 ∧
    ∀ rest, s.port = .txn (.read32 row.1) :: rest →
      step s = .next { s with port := rest, resp := some (.data32 row.2.2) }) ∧
  ∀ (s : State) (r : Reg) (rest : List Input), s.port = .txn (.read32 r.offset) :: rest →
    step s = .next { s with port := rest, resp := some (.data32 (s.readReg r)) }

/-- A write to ARG0..2, HEXP0..3 or KEY0..3, at its offset in the table (10_state.md R21, register by register in
RegisterReadHasNoSideEffect), stores the value there, and no other register, engine or byte changes (20_memory.md
R81; 10_state.md R23, R45, R46, R50). -/
def Obligations.PlainRegisterWriteStores : Prop :=
  ∀ (s : State) (r : Reg) (v : Word) (rest : List Input),
    r ∈ plainRegs → s.port = .txn (.write32 r.offset v) :: rest →
    ∃ t, step s = .next t ∧ (∀ q, t.readReg q = if q = r then v else s.readReg q) ∧
      t.prng = s.prng ∧ t.hash = s.hash ∧ t.ks = s.ks ∧ t.port = rest ∧
      t.resp = some .done ∧ t.resets = s.resets ∧ ∀ a, t.readByte a = s.readByte a

/-- A write to PM, PA, PC or PX0 stores the value and clears PVALID, also where the value is the old one,
and changes nothing else (10_state.md R34). -/
def Obligations.ParameterWriteInvalidatesTheGenerator : Prop :=
  ∀ (s : State) (r : Reg) (v : Word) (rest : List Input),
    r ∈ paramRegs → s.port = .txn (.write32 r.offset v) :: rest →
    ∃ t, step s = .next t ∧ t.prng.pvalid = false ∧
      (∀ q, q ≠ .status → t.readReg q = if q = r then v else s.readReg q) ∧
      t.prng.hist = s.prng.hist ∧
      t = { s with prng := t.prng, port := rest, resp := some .done }

/-- A write to a read-only register completes and changes nothing, and CMD reads 0 (20_memory.md R83). -/
def Obligations.ReadOnlyRegisterWriteIsIgnored : Prop :=
  (∀ (s : State) (r : Reg) (v : Word) (rest : List Input),
    r ∈ readOnlyRegs → s.port = .txn (.write32 r.offset v) :: rest →
    step s = .next { s with port := rest, resp := some .done }) ∧
  ∀ (s : State) (rest : List Input), s.port = .txn (.read32 0x000) :: rest →
    step s = .next { s with port := rest, resp := some (.data32 0) }

/-- An access is HostErr exactly when it is not one the port accepts, and then no state changes (20_memory.md
R84, with the map of R91). -/
def Obligations.HostErrExactlyWhenNotAccepted : Prop :=
  ∀ (s : State) (t : Txn) (rest : List Input), s.port = .txn t :: rest →
    (¬ t.accepted → step s = .next { s with port := rest, resp := some .hostErr }) ∧
    (t.accepted → ∃ u, step s = .next u ∧ ∃ r, u.resp = some r ∧ r ≠ .hostErr)

/-- Writes to BUF: a byte lands at its index, a word little-endian from its index on, and no other byte and
no register changes (20_memory.md R74, R80, R82). -/
def Obligations.BufWriteLandsLittleEndian : Prop :=
  (∀ (s : State) (k : Nat) (v : Byte) (rest : List Input),
    k < 65536 → s.port = .txn (.write8 (0x10000 + k) v) :: rest →
    ∃ t, step s = .next t ∧
      (∀ a, t.readByte a = if a = k then v else s.readByte a) ∧
      t = { s with buf := t.buf, port := rest, resp := some .done }) ∧
  (∀ (s : State) (k : Nat) (v : Word) (rest : List Input),
    k + 4 ≤ 65536 → k % 4 = 0 → s.port = .txn (.write32 (0x10000 + k) v) :: rest →
    ∃ t, step s = .next t ∧
      (∀ a, t.readByte a =
        if k ≤ a ∧ a < k + 4 then v.extractLsb' (8 * (a - k)) 8 else s.readByte a) ∧
      t = { s with buf := t.buf, port := rest, resp := some .done })

/-- Reads of BUF: a byte is the byte at its index, a word has the byte at `k + j` in bits `8j+7..8j`, and
nothing changes (20_memory.md R74, R80, R81). -/
def Obligations.BufReadIsLittleEndian : Prop :=
  (∀ (s : State) (k : Nat) (rest : List Input),
    k < 65536 → s.port = .txn (.read8 (0x10000 + k)) :: rest →
    step s = .next { s with port := rest, resp := some (.data8 (s.readByte k)) }) ∧
  (∀ (s : State) (k : Nat) (rest : List Input),
    k + 4 ≤ 65536 → k % 4 = 0 → s.port = .txn (.read32 (0x10000 + k)) :: rest →
    ∃ v : Word, step s = .next { s with port := rest, resp := some (.data32 v) } ∧
      ∀ j, j < 4 → v.extractLsb' (8 * j) 8 = s.readByte (k + j))

/-- An access that is not a write to CMD never changes ERRCODE, ERR or STICKY (10_state.md R32). -/
def Obligations.OtherAccessesKeepTheErrorRecord : Prop :=
  ∀ (s t : State) (x : Txn) (rest : List Input), s.port = .txn x :: rest →
    (∀ cw, x ≠ .write32 0x000 cw) → step s = .next t →
    t.errcode = s.errcode ∧ t.err = s.err ∧ t.sticky = s.sticky

/-- With no input waiting a step holds the whole state (60_exceptions.md R272, 70_reset_and_hazards.md R281; the
idle step is the model's reading of them, log 2). -/
def Obligations.IdleStepHoldsTheState : Prop :=
  ∀ s : State, s.port = [] → step s = .next s

/-- Every step and every command answers a next state. A failed command does (60_exceptions.md R256), and no
command hangs (70_reset_and_hazards.md R293). That a step with no input answers the same state is log 2, that a
HostErr, which the spec calls a refusal of the transaction, is a next state of the machine is log 9, and
that no fault exists is log 15: these three are the model's inferences. -/
def Obligations.EveryStepAnswersANextState : Prop :=
  (∀ s : State, ∃ t, step s = .next t) ∧ ∀ (i : Instr) (s : State), ∃ t, exec i s = .next t

/-- The invariant of the machine is kept by every step, from every state that meets it (10_state.md R32, R37,
R39, R41, R49; 40_prng.md R140; 60_exceptions.md R250). -/
def Obligations.StepKeepsTheInvariant : Prop :=
  ∀ s t : State, s.Inv → step s = .next t → t.Inv

/-- The state after reset meets the invariant. -/
def Obligations.ResetMeetsTheInvariant : Prop := State.reset.Inv

/-! ### The end of a command, over all commands -/

/-- A failed command changes ERRCODE, ERR and STICKY and nothing else: no register, no flag, no engine, no
element of HIST, no byte of BUF (60_exceptions.md R257). -/
def Obligations.FailedCommandChangesNothingElse : Prop :=
  ∀ (i : Instr) (s t : State), exec i s = .next t → t.err = true →
    t = { s with errcode := t.errcode, err := true, sticky := true }

/-- The errors a command can report are those of the table, with their numbers (60_exceptions.md R250). -/
def Obligations.CommandsReportOnlyTheirErrors : Prop :=
  ∀ (i : Instr) (s t : State), exec i s = .next t →
    (t.err = false ∧ t.errcode = 0) ∨ (t.err = true ∧ ∃ e ∈ errorsOf i, t.errcode = e.code)

/-- A command whose checks hold succeeds, whatever error was recorded before: it ends with ERRCODE = 0 and
ERR = 0 and leaves STICKY alone, but for CLRERR and SRESET, which clear it (60_exceptions.md R255). Every
other command ends with ERR = 1. -/
def Obligations.SuccessfulCommandClearsTheError : Prop :=
  ∀ (i : Instr) (s : State), ∃ t, exec i s = .next t ∧
    (checksHold i s →
      t.errcode = 0 ∧ t.err = false ∧
      (i ≠ .clrerr → i ≠ .sreset → t.sticky = s.sticky) ∧
      (i = .clrerr ∨ i = .sreset → t.sticky = false)) ∧
    (¬ checksHold i s → t.err = true)

/-- The error is E_STATE (code 9) exactly when the command's engine is not ready, but that P_SEQ with a count
of 0 reports E_COUNT first (60_exceptions.md R258, R259). -/
def Obligations.StateErrorExactlyWhenEngineNotReady : Prop :=
  ∀ (i : Instr) (s : State), ∃ t, exec i s = .next t ∧
    (t.errcode = 9 ↔ ¬ engineReady i s ∧ ¬ (i = .pSeq ∧ s.arg0 = 0))

/-- No command's result depends on ERR, STICKY or ERRCODE: from states that differ there only, a command ends
in states that differ in STICKY at most (10_state.md R31). -/
def Obligations.ErrorRecordDoesNotInfluenceCommands : Prop :=
  ∀ (i : Instr) (s t : State) (code : Byte) (err sticky : Bool), exec i s = .next t →
    ∃ t', exec i { s with errcode := code, err := err, sticky := sticky } = .next t' ∧
      { t' with sticky := t.sticky } = t

/-- A command stores only to the bytes of its row of the table (20_memory.md R78): every other byte of BUF
reads as before, and a failed command stores nothing. -/
def Obligations.CommandsWriteOnlyTheirRange : Prop :=
  ∀ (i : Instr) (s t : State), exec i s = .next t → ∀ a,
    (t.err = true ∨ ¬ inBytes (writeRange i s).1 (writeRange i s).2 a) → t.readByte a = s.readByte a

/-- A command depends on no byte of BUF outside the range it reads (20_memory.md R76, R78): on two states that
differ only in BUF and agree on that range it ends alike, writes the same bytes, and leaves the others. -/
def Obligations.CommandsDependOnlyOnTheBytesTheyRead : Prop :=
  ∀ (i : Instr) (s : State) (m : Memory),
    (∀ a, inBytes (readRange i s).1 (readRange i s).2 a →
      State.readByte { s with buf := m } a = s.readByte a) →
    ∃ t t', exec i s = .next t ∧ exec i { s with buf := m } = .next t' ∧
      t' = { t with buf := t'.buf } ∧
      (∀ a, t.err = false → inBytes (writeRange i s).1 (writeRange i s).2 a →
        t'.readByte a = t.readByte a) ∧
      (∀ a, t.err = true ∨ ¬ inBytes (writeRange i s).1 (writeRange i s).2 a →
        t'.readByte a = State.readByte { s with buf := m } a)

/-- Which commands can change which state, SRESET apart: ARG0..2, HEXP0..3 and the generator's parameters are
changed by none, RES1 only by P_PERIOD, KEY only by K_DERIVE, the schedule only by C_SETKEY, PVALID only by
P_INIT, and so on (10_state.md R23, R24, R34, R35, R36, R40, R45, R46, R48, R50). That `port`, `resp` and
`resets` stay is the model's choice (logs 1, 3, 5). -/
def Obligations.StateIsChangedOnlyByItsOwnCommands : Prop :=
  ∀ (i : Instr) (s t : State), exec i s = .next t → i ≠ .sreset →
    t.arg0 = s.arg0 ∧ t.arg1 = s.arg1 ∧ t.arg2 = s.arg2 ∧
    t.hexp0 = s.hexp0 ∧ t.hexp1 = s.hexp1 ∧ t.hexp2 = s.hexp2 ∧ t.hexp3 = s.hexp3 ∧
    t.prng.pm = s.prng.pm ∧ t.prng.pa = s.prng.pa ∧ t.prng.pc = s.prng.pc ∧
    t.prng.px0 = s.prng.px0 ∧
    (t.res1 ≠ s.res1 → i = .pPeriod) ∧
    (t.res0 ≠ s.res0 → i = .pNext ∨ i = .pPeriod ∨ i = .hVerify ∨ (∃ n, i = .kDerive n) ∨
      i = .cCbcEnc ∨ i = .cCbcDec) ∧
    (t.keyBytes ≠ s.keyBytes → ∃ n, i = .kDerive n) ∧
    (t.ks ≠ s.ks → ∃ w b r, i = .cSetkey w b r) ∧
    (t.hash ≠ s.hash → i = .hInit ∨ i = .hUpdate ∨ i = .hFinal ∨ i = .hDigest ∨ i = .hVerify ∨
      ∃ n, i = .kDerive n) ∧
    (t.prng ≠ s.prng → i = .pInit ∨ i = .pReset ∨ i = .pNext ∨ i = .pSeq ∨ i = .pPeriod ∨
      i = .cCbcEnc) ∧
    (t.prng.pvalid ≠ s.prng.pvalid → i = .pInit) ∧
    t.port = s.port ∧ t.resp = s.resp ∧ t.resets = s.resets

/-! ### System commands -/

/-- NOP clears ERRCODE and ERR and changes nothing else, and the word 0x00000100 is not NOP but illegal
(45_system.md R240). -/
def Obligations.NopOnlyClearsTheError : Prop :=
  decode 0x00000000 = .ok .nop ∧ decode 0x00000100 = .error .reservedBitSet ∧
  ∀ s : State, exec .nop s = .next { s with errcode := 0, err := false }

/-- CLRERR clears STICKY, ERRCODE and ERR, and changes nothing else (45_system.md R241). -/
def Obligations.ClrerrClearsTheStickyFlag : Prop :=
  decode 0x00000001 = .ok .clrerr ∧
  ∀ s : State, exec .clrerr s = .next { s with errcode := 0, err := false, sticky := false }

/-- SRESET: every register reads its reset value, HIST is empty, and BUF keeps every byte (45_system.md R242,
10_state.md R60). That `port`, `resp` and `resets` stay is the model's choice (logs 1, 3, 5). -/
def Obligations.SresetGivesTheResetStateAndKeepsBuf : Prop :=
  ∀ s : State, ∃ t, exec .sreset s = .next t ∧ (∀ r, t.readReg r = r.resetValue) ∧
    t.prng.hist = [] ∧ t.hash.hlen = 0 ∧ (∀ a, t.readByte a = s.readByte a) ∧
    t.port = s.port ∧ t.resp = s.resp ∧ t.resets = s.resets

/-! ### PRNG Engine -/

/-- P_INIT, the word 0x00000010: parameters in range make the generator valid, at its seed, with nothing
emitted, and nothing else changes. Parameters out of range fail with E_PRNG_PARAM, code 2 (40_prng.md R130). -/
def Obligations.PInitValidatesTheParameters : Prop :=
  decode 0x00000010 = .ok .pInit ∧ ∀ s : State,
    (0 < s.prng.pm.toNat ∧ s.prng.pa.toNat < s.prng.pm.toNat ∧
        s.prng.pc.toNat < s.prng.pm.toNat ∧ s.prng.px0.toNat < s.prng.pm.toNat →
      exec .pInit s = .next { s with
        prng := { s.prng with pvalid := true, px := s.prng.px0, phcnt := 0, hist := [] },
        errcode := 0, err := false }) ∧
    (¬ (0 < s.prng.pm.toNat ∧ s.prng.pa.toNat < s.prng.pm.toNat ∧
        s.prng.pc.toNat < s.prng.pm.toNat ∧ s.prng.px0.toNat < s.prng.pm.toNat) →
      exec .pInit s = .next { s with errcode := 2, err := true, sticky := true })

/-- P_RESET, the word 0x00000011, returns a valid generator to its seed and changes nothing else. Without a
valid generator it fails with E_STATE, code 9 (40_prng.md R133, R135). -/
def Obligations.PResetReturnsToTheSeed : Prop :=
  decode 0x00000011 = .ok .pReset ∧ ∀ s : State,
    (s.prng.pvalid = true → exec .pReset s = .next { s with
      prng := { s.prng with px := s.prng.px0, phcnt := 0, hist := [] },
      errcode := 0, err := false }) ∧
    (s.prng.pvalid = false →
      exec .pReset s = .next { s with errcode := 9, err := true, sticky := true })

/-- P_NEXT, the word 0x00000012: PX and RES0 become `(PA·PX + PC) mod PM`, computed exactly, HIST ends in the
new value and PHCNT counts it mod 2^32, nothing else changes. Without a valid generator it fails with E_STATE
(40_prng.md R132, R134). -/
def Obligations.PNextAdvancesTheGenerator : Prop :=
  decode 0x00000012 = .ok .pNext ∧ ∀ (s : State) (x : Word),
    x = BitVec.ofNat 32
      ((s.prng.pa.toNat * s.prng.px.toNat + s.prng.pc.toNat) % s.prng.pm.toNat) →
    (s.prng.pvalid = true → exec .pNext s = .next { s with
      prng := { s.prng with px := x, phcnt := s.prng.phcnt + 1, hist := s.prng.hist ++ [x] },
      res0 := x, errcode := 0, err := false }) ∧
    (s.prng.pvalid = false →
      exec .pNext s = .next { s with errcode := 9, err := true, sticky := true })

/-- P_SEQ writes `x_1 ... x_n` as little-endian words from ARG2 on, leaves the generator at `x_n`, and changes
no other byte and no other state (40_prng.md R136; `m > 0` is R37). -/
def Obligations.PSeqWritesTheSequence : Prop :=
  ∀ s : State, 1 ≤ s.arg0.toNat → s.prng.pvalid = true → 0 < s.prng.pm.toNat →
    s.arg2.toNat + 4 * s.arg0.toNat ≤ 65536 →
    ∃ t, exec .pSeq s = .next t ∧
      (∀ k, k < s.arg0.toNat →
        wordOf (t.memRead (s.arg2.toNat + 4 * k) 4) = BitVec.ofNat 32 (s.prng.orbit (k + 1))) ∧
      (∀ a, a < s.arg2.toNat ∨ s.arg2.toNat + 4 * s.arg0.toNat ≤ a →
        t.readByte a = s.readByte a) ∧
      t = { s with
        prng := { s.prng with
          px := BitVec.ofNat 32 (s.prng.orbit s.arg0.toNat), phcnt := s.arg0,
          hist := (List.range s.arg0.toNat).map
            (fun k => BitVec.ofNat 32 (s.prng.orbit (k + 1))) },
        buf := t.buf, errcode := 0, err := false }

/-- P_SEQ's errors in their order: a count of 0, then no valid generator, then a destination out of BUF, with
`4·n` not truncated (40_prng.md R136; 60_exceptions.md R258; 20_memory.md R77). -/
def Obligations.PSeqErrorsComeInOrder : Prop :=
  ∀ s : State,
    (s.arg0 = 0 → exec .pSeq s = .next { s with errcode := 3, err := true, sticky := true }) ∧
    (s.arg0 ≠ 0 → s.prng.pvalid = false →
      exec .pSeq s = .next { s with errcode := 9, err := true, sticky := true }) ∧
    (s.arg0 ≠ 0 → s.prng.pvalid = true → 65536 < s.arg2.toNat + 4 * s.arg0.toNat →
      exec .pSeq s = .next { s with errcode := 10, err := true, sticky := true })

/-- The closed form of P_PERIOD (40_prng.md R139): with `mu` the tail length and `lam` the cycle length of the
generator's orbit, the command finds `lam` when the bound allows `mu + lam` advances, and otherwise reports the
bound, with the generator where the advances left it. The premises are P_INIT's invariants (R37); without a
valid generator the command fails with E_STATE (StateErrorExactlyWhenEngineNotReady,
FailedCommandChangesNothingElse). -/
def Obligations.PPeriodFindsTheCycleLength : Prop :=
  ∀ s : State, s.prng.pvalid = true → 0 < s.prng.pm.toNat →
    s.prng.px0.toNat < s.prng.pm.toNat →
    ∃ mu lam : Nat, 1 ≤ lam ∧ mu + lam ≤ s.prng.pm.toNat ∧
      s.prng.orbit (mu + lam) = s.prng.orbit mu ∧
      (∀ i j, i < j → j < mu + lam → s.prng.orbit i ≠ s.prng.orbit j) ∧
      (mu + lam ≤ s.arg0.toNat → exec .pPeriod s = .next { s with
        prng := { s.prng with
          px := BitVec.ofNat 32 (s.prng.orbit (mu + lam)), phcnt := BitVec.ofNat 32 (mu + lam),
          hist := (List.range (mu + lam)).map
            (fun k => BitVec.ofNat 32 (s.prng.orbit (k + 1))) },
        res0 := BitVec.ofNat 32 lam, res1 := 1, errcode := 0, err := false }) ∧
      (s.arg0.toNat < mu + lam → exec .pPeriod s = .next { s with
        prng := { s.prng with
          px := BitVec.ofNat 32 (s.prng.orbit s.arg0.toNat), phcnt := s.arg0,
          hist := (List.range s.arg0.toNat).map
            (fun k => BitVec.ofNat 32 (s.prng.orbit (k + 1))) },
        res0 := s.arg0, res1 := 0, errcode := 0, err := false })

/-! ### Hash Engine and Key Derivation -/

/-- H_INIT, the word 0x00000020, makes a fresh accumulator in every state and changes nothing outside the Hash
Engine (41_hash.md R171). -/
def Obligations.HInitStartsAFreshAccumulator : Prop :=
  decode 0x00000020 = .ok .hInit ∧ ∀ s : State, ∃ t, exec .hInit s = .next t ∧
    t.hash.ha = 0x67452301 ∧ t.hash.hb = 0xEFCDAB89 ∧ t.hash.hc = 0x98BADCFE ∧
    t.hash.hd = 0x10325476 ∧ t.hash.hlen = 0 ∧ t.hash.hfin = false ∧
    (∀ a, t.readByte a = s.readByte a) ∧
    t = { s with hash := t.hash, errcode := 0, err := false }

/-- H_UPDATE, the word 0x00000021: HLEN grows by the length, and only the Hash Engine changes. Where HBLK holds
as many bytes as R41 says (part of the invariant), HA..HD are the old ones compressed over the full 64-byte
groups of the waiting bytes and the chunk, and the rest waits in HBLK; that HBLK lists no other byte is the
model's choice (log 7). A finalized accumulator is E_STATE, then a range out of BUF is E_ADDR (41_hash.md R162,
R172). -/
def Obligations.HUpdateAbsorbsTheChunk : Prop :=
  decode 0x00000021 = .ok .hUpdate ∧ ∀ s : State,
    (s.hash.hfin = false → s.arg0.toNat + s.arg1.toNat ≤ 65536 →
      ∃ t m, exec .hUpdate s = .next t ∧
        m = s.hash.hblk ++ s.memRead s.arg0.toNat s.arg1.toNat ∧
        t.hash.hlen = s.hash.hlen + BitVec.ofNat 64 s.arg1.toNat ∧ t.hash.hfin = false ∧
        (s.hash.hblk.length = s.hash.hlen.toNat % 64 →
          ∃ h, h = (groupsOf64 (m.length / 64) m).foldl HashEngine.compress s.hash ∧
            (t.hash.ha = h.ha ∧ t.hash.hb = h.hb ∧ t.hash.hc = h.hc ∧ t.hash.hd = h.hd) ∧
            t.hash.hblk = m.drop (64 * (m.length / 64))) ∧
        (∀ a, t.readByte a = s.readByte a) ∧
        t = { s with hash := t.hash, errcode := 0, err := false }) ∧
    (s.hash.hfin = true →
      exec .hUpdate s = .next { s with errcode := 9, err := true, sticky := true }) ∧
    (s.hash.hfin = false → 65536 < s.arg0.toNat + s.arg1.toNat →
      exec .hUpdate s = .next { s with errcode := 10, err := true, sticky := true })

/-- "same digest for the same total bytes regardless of chunk boundaries" (41_hash.md R162): two H_UPDATEs of
adjacent ranges leave the Hash Engine as one H_UPDATE of both does, HBLK listing the waiting bytes only (log 7). -/
def Obligations.ChunkBoundariesDoNotMatter : Prop :=
  ∀ (s : State) (src m n : Word), s.hash.hfin = false →
    src.toNat + m.toNat + n.toNat ≤ 65536 →
    ∃ t1 t2 t, exec .hUpdate { s with arg0 := src, arg1 := m } = .next t1 ∧
      exec .hUpdate { t1 with arg0 := src + m, arg1 := n } = .next t2 ∧
      exec .hUpdate { s with arg0 := src, arg1 := m + n } = .next t ∧ t2.hash = t.hash

/-- H_FINAL, the word 0x00000022, finalizes: HLEN is the message length still, HFIN is 1, and HA..HD are the old ones compressed over
the buffered bytes and the padding, block by block. A second H_FINAL is E_STATE (41_hash.md R164, R173). The
premise on HBLK is R41's, part of the invariant. -/
def Obligations.HFinalPadsAndFinalizes : Prop :=
  decode 0x00000022 = .ok .hFinal ∧ ∀ s : State,
    (s.hash.hfin = false → s.hash.hblk.length = s.hash.hlen.toNat % 64 →
      ∃ t h, exec .hFinal s = .next t ∧
        h = (groupsOf64 ((s.hash.hblk ++ padBytes s.hash.hlen.toNat).length / 64)
          (s.hash.hblk ++ padBytes s.hash.hlen.toNat)).foldl HashEngine.compress s.hash ∧
        (t.hash.ha = h.ha ∧ t.hash.hb = h.hb ∧ t.hash.hc = h.hc ∧ t.hash.hd = h.hd) ∧
        t.hash.hlen = s.hash.hlen ∧ t.hash.hfin = true ∧
        (∀ a, t.readByte a = s.readByte a) ∧
        t = { s with hash := t.hash, errcode := 0, err := false }) ∧
    (s.hash.hfin = true →
      exec .hFinal s = .next { s with errcode := 9, err := true, sticky := true })

/-- H_DIGEST, the word 0x00000023: the digest is the initial constants compressed over the 64-byte blocks of the message and its
padding, whatever the Hash Engine held. Only the Hash Engine changes. A range out of BUF is E_ADDR
(41_hash.md R165, R174). -/
def Obligations.HDigestCompressesThePaddedMessage : Prop :=
  decode 0x00000023 = .ok .hDigest ∧ ∀ s : State,
    (s.arg0.toNat + s.arg1.toNat ≤ 65536 →
      ∃ t h msg, exec .hDigest s = .next t ∧ msg = s.memRead s.arg0.toNat s.arg1.toNat ∧
        h = (groupsOf64 ((msg ++ padBytes msg.length).length / 64)
          (msg ++ padBytes msg.length)).foldl HashEngine.compress HashEngine.init ∧
        (t.hash.ha = h.ha ∧ t.hash.hb = h.hb ∧ t.hash.hc = h.hc ∧ t.hash.hd = h.hd) ∧
        t.hash.hlen = BitVec.ofNat 64 s.arg1.toNat ∧ t.hash.hfin = true ∧
        (∀ a, t.readByte a = s.readByte a) ∧
        t = { s with hash := t.hash, errcode := 0, err := false }) ∧
    (65536 < s.arg0.toNat + s.arg1.toNat →
      exec .hDigest s = .next { s with errcode := 10, err := true, sticky := true })

/-- H_DIGEST ends in the very state of H_INIT, H_UPDATE, H_FINAL in sequence (41_hash.md R165, R174), HBLK listing
the waiting bytes only (log 7). -/
def Obligations.OneShotEqualsStreamed : Prop :=
  ∀ s : State, s.arg0.toNat + s.arg1.toNat ≤ 65536 →
    ∃ t1 t2 t, exec .hInit s = .next t1 ∧ exec .hUpdate t1 = .next t2 ∧
      exec .hFinal t2 = .next t ∧ exec .hDigest s = .next t

/-- H_VERIFY, the word 0x00000024, leaves the Hash Engine as H_DIGEST does and RES0 says whether the sixteen digest bytes are the
sixteen expected ones. A mismatch is no error. A range out of BUF is E_ADDR (41_hash.md R175; 10_state.md
R45). -/
def Obligations.HVerifyComparesTheDigest : Prop :=
  decode 0x00000024 = .ok .hVerify ∧ ∀ s : State,
    (s.arg0.toNat + s.arg1.toNat ≤ 65536 →
      ∃ t d, exec .hVerify s = .next t ∧ exec .hDigest s = .next d ∧ t.hash = d.hash ∧
        (∀ a, t.readByte a = s.readByte a) ∧
        t = { s with hash := d.hash,
                     res0 := if d.hash.digest =
                         le32 s.hexp0 ++ le32 s.hexp1 ++ le32 s.hexp2 ++ le32 s.hexp3
                       then 1 else 0,
                     errcode := 0, err := false }) ∧
    (65536 < s.arg0.toNat + s.arg1.toNat →
      exec .hVerify s = .next { s with errcode := 10, err := true, sticky := true })

/-- The padding string (41_hash.md R163): 80, then `z` zero bytes until the length is 56 mod 64, then the bit
length as eight little-endian bytes, mod 2^64. The padded length is the least multiple of 64 that is at
least `L + 9`. -/
def Obligations.PaddingFillsTheLastBlock : Prop :=
  ∀ L : Nat, ∃ z : Nat, z < 64 ∧ (L + 1 + z) % 64 = 56 ∧
    padBytes L = [0x80] ++ List.replicate z 0 ++ le64 (BitVec.ofNat 64 ((8 * L) % 2 ^ 64)) ∧
    (padBytes L).length = 1 + z + 8 ∧ 9 ≤ (padBytes L).length ∧ (padBytes L).length ≤ 72 ∧
    (L + (padBytes L).length) % 64 = 0 ∧
    (∀ m, m % 64 = 0 → L + 9 ≤ m → L + (padBytes L).length ≤ m) ∧
    (L % 64 = 55 → z = 0) ∧ (L % 64 = 56 → z = 63)

/-- The two digests that the spec's source gives: of the empty message and of "abc" (41_hash.md R156). -/
def Obligations.DigestsOfEmptyAndAbc : Prop :=
  (hashOf []).digest =
    [0xD4, 0x1D, 0x8C, 0xD9, 0x8F, 0x00, 0xB2, 0x04,
     0xE9, 0x80, 0x09, 0x98, 0xEC, 0xF8, 0x42, 0x7E] ∧
  (hashOf [0x61, 0x62, 0x63]).digest =
    [0x90, 0x01, 0x50, 0x98, 0x3C, 0xD2, 0x4F, 0xB0,
     0xD6, 0x96, 0x3F, 0x7D, 0x28, 0xE1, 0x7F, 0x72]

/-- K_DERIVE, the word `0x30 + n·2^16`: the first `k = min(n, 16)` KEY bytes are the password's digest bytes, the others keep their
value, RES0 is `k`, the Hash Engine is left as by H_DIGEST, and nothing else changes. A range out of BUF is
E_ADDR (42_kdf.md R190). -/
def Obligations.KDeriveWritesTheKeyPrefix : Prop :=
  ∀ (s : State) (n : Byte),
    decode (BitVec.ofNat 32 (0x30 + n.toNat * 2 ^ 16)) = .ok (.kDerive n) ∧
    (s.arg0.toNat + s.arg1.toNat ≤ 65536 →
      ∃ t d, exec (.kDerive n) s = .next t ∧ exec .hDigest s = .next d ∧
        t.keyBytes = d.hash.digest.take (min n.toNat 16) ++ s.keyBytes.drop (min n.toNat 16) ∧
        (∀ a, t.readByte a = s.readByte a) ∧
        t = { s with hash := d.hash, res0 := BitVec.ofNat 32 (min n.toNat 16),
                     key0 := t.key0, key1 := t.key1, key2 := t.key2, key3 := t.key3,
                     errcode := 0, err := false }) ∧
    (65536 < s.arg0.toNat + s.arg1.toNat →
      exec (.kDerive n) s = .next { s with errcode := 10, err := true, sticky := true })

/-- A single-shot hash, a verification or a key derivation in the midst of a streamed hash destroys it: its
next H_UPDATE or H_FINAL fails with E_STATE (70_reset_and_hazards.md R287). -/
def Obligations.SharedHashEngineEndsAStreamedHash : Prop :=
  ∀ (s t : State) (i : Instr),
    (i = .hDigest ∨ i = .hVerify ∨ ∃ n, i = .kDerive n) →
    exec i s = .next t → t.err = false →
    exec .hUpdate t = .next { t with errcode := 9, err := true, sticky := true } ∧
    exec .hFinal t = .next { t with errcode := 9, err := true, sticky := true }

/-- `K_DERIVE n=16` then `C_SETKEY b=B` builds the schedule that `K_DERIVE n=B` then `C_SETKEY b=B` builds, for
every accepted `B` (42_kdf.md R193). -/
def Obligations.ShorterDerivationGivesTheSameSchedule : Prop :=
  ∀ (s : State) (b r : Byte), s.arg0.toNat + s.arg1.toNat ≤ 65536 →
    1 ≤ b.toNat → b.toNat ≤ 16 →
    ∃ t1 t2 u1 u2, exec (.kDerive 16) s = .next t1 ∧ exec (.cSetkey 32 b r) t1 = .next u1 ∧
      exec (.kDerive b) s = .next t2 ∧ exec (.cSetkey 32 b r) t2 = .next u2 ∧ u1.ks = u2.ks

/-! ### Block Cipher Engine -/

/-- C_SETKEY, the word `0x40 + r·2^8 + b·2^16 + w·2^24`: word size 32 and a key length in 1..16 build the schedule of the first `b` KEY bytes, whatever
the round count, and change nothing else: S is what the equations of the mixing rounds give from the key
words and the initial fill (R203). A wrong word size is E_WORDSIZE, and only then is a wrong key length
E_KEYLEN (43_cipher.md R200, R203, R204; that S holds no further word is the model's, log 6; P32 and Q32 are the
spec's, log 12). -/
def Obligations.CSetkeyBuildsTheSchedule : Prop :=
  ∀ (s : State) (w b r : Byte),
    decode (BitVec.ofNat 32
      (0x40 + r.toNat * 2 ^ 8 + b.toNat * 2 ^ 16 + w.toNat * 2 ^ 24)) = .ok (.cSetkey w b r) ∧
    (w.toNat = 32 → 1 ≤ b.toNat → b.toNat ≤ 16 →
      ∃ t, exec (.cSetkey w b r) s = .next t ∧
        t.ks.s = keySchedule s.keyBytes b.toNat r.toNat ∧
        mixesTo (keyWords s.keyBytes b.toNat) (2 * (r.toNat + 1)) t.ks.s ∧
        t.ks.s.length = 2 * (r.toNat + 1) ∧ t.ks.cr = r ∧ t.ks.cb = b ∧ t.ks.ksvalid = true ∧
        (∀ a, t.readByte a = s.readByte a) ∧
        t = { s with ks := t.ks, errcode := 0, err := false }) ∧
    (w.toNat ≠ 32 →
      exec (.cSetkey w b r) s = .next { s with errcode := 4, err := true, sticky := true }) ∧
    (w.toNat = 32 → b.toNat = 0 ∨ 16 < b.toNat →
      exec (.cSetkey w b r) s = .next { s with errcode := 5, err := true, sticky := true })

/-- The key words (43_cipher.md R201): `ceil(b/4)` words, word `j` having key byte `4j + m` in bits `8m+7..8m`,
0 where the key has no such byte. Sixteen bytes give the four KEY registers. -/
def Obligations.KeyWordsAreLittleEndianAndPadded : Prop :=
  (∀ (key : List Byte) (b : Nat), key.length = 16 → 1 ≤ b → b ≤ 16 →
    (keyWords key b).length = (b + 3) / 4 ∧ 1 ≤ (b + 3) / 4 ∧ (b + 3) / 4 ≤ 4 ∧
    ∀ j m, j < (b + 3) / 4 → m < 4 →
      ((keyWords key b).getD j 0).extractLsb' (8 * m) 8 =
        if 4 * j + m < b then key.getD (4 * j + m) 0 else 0) ∧
  ∀ s : State, keyWords s.keyBytes 16 = [s.key0, s.key1, s.key2, s.key3] ∧
    keyWords s.keyBytes 5 = [s.key0, (s.key1.extractLsb' 0 8).zeroExtend 32]

/-- The initial fill of S (43_cipher.md R202): `S[0] = P32` and `S[i] = S[i−1] + Q32`, that is
`P32 + i·Q32` mod 2^32. -/
def Obligations.InitialScheduleIsAnArithmeticSequence : Prop :=
  ∀ t : Nat, (initialSchedule t).length = t ∧
    (0 < t → (initialSchedule t)[0]? = some 0xB7E15163) ∧
    (∀ (i : Nat) (x : Word), i + 1 < t → (initialSchedule t)[i]? = some x →
      (initialSchedule t)[i + 1]? = some (x + 0x9E3779B9)) ∧
    ∀ i, i < t → (initialSchedule t)[i]? =
      some (BitVec.ofNat 32 ((0xB7E15163 + i * 0x9E3779B9) % 2 ^ 32))

/-- Encryption of a block satisfies the equations of the encryption rounds, under every schedule of `2(CR + 1)`
words (43_cipher.md R205), and the inverse law of the single-block primitive holds under every schedule
(R208), so that decryption is what R206 calls the exact algebraic inverse. -/
def Obligations.BlockEncryptionAndDecryptionAreInverse : Prop :=
  ∀ k : KeySchedule,
    (∀ x : List Byte, x.length = 8 → k.s.length = 2 * (k.cr.toNat + 1) →
      encryptsTo k x (k.encrypt x)) ∧
    (∀ x : List Byte, x.length = 8 →
      k.decrypt (k.encrypt x) = x ∧ k.encrypt (k.decrypt x) = x) ∧
    Set.BijOn k.encrypt {x | x.length = 8} {x | x.length = 8} ∧
    Set.BijOn k.decrypt {x | x.length = 8} {x | x.length = 8}

/-- C_ECB_ENC and C_ECB_DEC, the words 0x00000041 and 0x00000042, write the eight bytes of the transformed block at ARG2, computed from the bytes as
they were, at any overlap, and change no other byte and no register. No schedule is E_STATE, then a range out
of BUF is E_ADDR (43_cipher.md R207, R209; 20_memory.md R76). -/
def Obligations.EcbCommandsTransformOneBlock : Prop :=
  decode 0x00000041 = .ok .cEcbEnc ∧ decode 0x00000042 = .ok .cEcbDec ∧
  ∀ (s : State) (i : Instr) (f : List Byte → List Byte),
    (i = .cEcbEnc ∧ f = s.ks.encrypt ∨ i = .cEcbDec ∧ f = s.ks.decrypt) →
    (s.ks.ksvalid = true → s.arg0.toNat + 8 ≤ 65536 → s.arg2.toNat + 8 ≤ 65536 →
      ∃ t, exec i s = .next t ∧
        t.memRead s.arg2.toNat 8 = f (s.memRead s.arg0.toNat 8) ∧
        (∀ a, a < s.arg2.toNat ∨ s.arg2.toNat + 8 ≤ a → t.readByte a = s.readByte a) ∧
        t = { s with buf := t.buf, errcode := 0, err := false }) ∧
    (s.ks.ksvalid = false →
      exec i s = .next { s with errcode := 9, err := true, sticky := true }) ∧
    (s.ks.ksvalid = true → 65536 < s.arg0.toNat + 8 ∨ 65536 < s.arg2.toNat + 8 →
      exec i s = .next { s with errcode := 10, err := true, sticky := true })

/-! ### Chained mode -/

/-- The padding law (44_cbc.md R222): unpadding undoes padding, and the padded length is the smallest multiple
of 8 that is at least one more than the length, so strictly greater where that was a multiple of 8. -/
def Obligations.UnpadUndoesPad : Prop :=
  ∀ d : List Byte, unpad8 (pad8 d) = some d ∧
    0 < (pad8 d).length ∧ (pad8 d).length % 8 = 0 ∧ d.length + 1 ≤ (pad8 d).length ∧
    (∀ m, m % 8 = 0 → d.length + 1 ≤ m → (pad8 d).length ≤ m)

/-- C_CBC_ENC: the payload of 8 + 8·(floor(len/8) + 1) bytes at ARG2 is the chained encryption, under the IV
`x_1 x_2` of the loaded generator, of the bytes as they were: the encrypted IV, then block by block the
encryption of the padded block xor the block before it, the raw IV for the first. RES0 is its length and the
generator stands at `x_2` with two values emitted. No other byte and no other state changes (44_cbc.md R223, R224, R225, R226;
`m > 0` is R37). -/
def Obligations.CbcEncryptWritesThePayload : Prop :=
  ∀ (s : State) (olen : Nat) (x1 x2 : Word),
    olen = 8 + 8 * (s.arg1.toNat / 8 + 1) →
    x1 = BitVec.ofNat 32 (s.prng.orbit 1) → x2 = BitVec.ofNat 32 (s.prng.orbit 2) →
    s.ks.ksvalid = true → s.prng.pvalid = true → 0 < s.prng.pm.toNat →
    s.arg0.toNat + s.arg1.toNat ≤ 65536 → s.arg2.toNat + olen ≤ 65536 →
    ∃ t, exec .cCbcEnc s = .next t ∧
      t.memRead s.arg2.toNat olen =
        cbcEncrypt s.ks (le32 x1 ++ le32 x2) (s.memRead s.arg0.toNat s.arg1.toNat) ∧
      chainsTo s.ks (le32 x1 ++ le32 x2) (s.memRead s.arg0.toNat s.arg1.toNat)
        (t.memRead s.arg2.toNat olen) ∧
      (∀ a, a < s.arg2.toNat ∨ s.arg2.toNat + olen ≤ a → t.readByte a = s.readByte a) ∧
      t = { s with
        prng := { s.prng with px := x2, phcnt := 2, hist := [x1, x2] },
        res0 := BitVec.ofNat 32 olen, buf := t.buf, errcode := 0, err := false }

/-- C_CBC_DEC: a payload whose padding is valid gives its plaintext at ARG2 and the plaintext's length in RES0,
between len − 16 and len − 9, and no other byte and no other state changes (44_cbc.md R227, R228). -/
def Obligations.CbcDecryptWritesThePlaintext : Prop :=
  ∀ (s : State) (p : List Byte), s.ks.ksvalid = true →
    16 ≤ s.arg1.toNat → s.arg1.toNat % 8 = 0 →
    s.arg0.toNat + s.arg1.toNat ≤ 65536 → s.arg2.toNat + (s.arg1.toNat - 8) ≤ 65536 →
    cbcDecrypt s.ks (s.memRead s.arg0.toNat s.arg1.toNat) = some p →
    ∃ t, exec .cCbcDec s = .next t ∧ t.memRead s.arg2.toNat p.length = p ∧
      s.arg1.toNat - 16 ≤ p.length ∧ p.length ≤ s.arg1.toNat - 9 ∧
      (∀ a, a < s.arg2.toNat ∨ s.arg2.toNat + p.length ≤ a → t.readByte a = s.readByte a) ∧
      t = { s with res0 := BitVec.ofNat 32 p.length, buf := t.buf, errcode := 0, err := false }

/-- The errors of C_CBC_ENC in their order, E_STATE then E_ADDR, and those of C_CBC_DEC, E_STATE, E_SHORT,
E_LENGTH, E_ADDR, E_PADDING, each with nothing else changed (44_cbc.md R221, R224, R228; 60_exceptions.md
R258). -/
def Obligations.CbcErrorsComeInOrder : Prop :=
  ∀ s : State,
    (s.ks.ksvalid = false ∨ s.prng.pvalid = false →
      exec .cCbcEnc s = .next { s with errcode := 9, err := true, sticky := true }) ∧
    (s.ks.ksvalid = true → s.prng.pvalid = true →
      65536 < s.arg0.toNat + s.arg1.toNat ∨
        65536 < s.arg2.toNat + (8 + 8 * (s.arg1.toNat / 8 + 1)) →
      exec .cCbcEnc s = .next { s with errcode := 10, err := true, sticky := true }) ∧
    (s.ks.ksvalid = false →
      exec .cCbcDec s = .next { s with errcode := 9, err := true, sticky := true }) ∧
    (s.ks.ksvalid = true → s.arg1.toNat < 16 →
      exec .cCbcDec s = .next { s with errcode := 6, err := true, sticky := true }) ∧
    (s.ks.ksvalid = true → 16 ≤ s.arg1.toNat → s.arg1.toNat % 8 ≠ 0 →
      exec .cCbcDec s = .next { s with errcode := 7, err := true, sticky := true }) ∧
    (s.ks.ksvalid = true → 16 ≤ s.arg1.toNat → s.arg1.toNat % 8 = 0 →
      65536 < s.arg0.toNat + s.arg1.toNat ∨ 65536 < s.arg2.toNat + (s.arg1.toNat - 8) →
      exec .cCbcDec s = .next { s with errcode := 10, err := true, sticky := true }) ∧
    (s.ks.ksvalid = true → 16 ≤ s.arg1.toNat → s.arg1.toNat % 8 = 0 →
      s.arg0.toNat + s.arg1.toNat ≤ 65536 → s.arg2.toNat + (s.arg1.toNat - 8) ≤ 65536 →
      cbcDecrypt s.ks (s.memRead s.arg0.toNat s.arg1.toNat) = none →
      exec .cCbcDec s = .next { s with errcode := 8, err := true, sticky := true })

/-- Encryption satisfies the equations of R226, block by block, decryption of every payload those of R227, and
the round trip of the chained mode holds (44_cbc.md R229): with an unchanged schedule decryption gives back
every plaintext, under every initialization vector, so whatever the generator's parameters, and the empty
plaintext too. -/
def Obligations.ChainedDecryptionUndoesEncryption : Prop :=
  (∀ (k : KeySchedule) (iv p : List Byte), iv.length = 8 →
    chainsTo k iv p (cbcEncrypt k iv p) ∧ cbcDecrypt k (cbcEncrypt k iv p) = some p) ∧
  ∀ (k : KeySchedule) (y : List Byte), 16 ≤ y.length → y.length % 8 = 0 →
    unchainsTo k y (cbcDecrypt k y)

/-- The round trip through BUF: C_CBC_ENC of any range, then C_CBC_DEC of the payload it wrote, at its length,
to any place with room, writes the plaintext there and its length to RES0 (44_cbc.md R224, R228, R229). -/
def Obligations.ChainedRoundTripThroughBuf : Prop :=
  ∀ (s t : State) (back : Word), exec .cCbcEnc s = .next t → t.err = false →
    back.toNat + 8 * (s.arg1.toNat / 8 + 1) ≤ 65536 →
    ∃ u, exec .cCbcDec { t with arg0 := s.arg2, arg1 := t.res0, arg2 := back } = .next u ∧
      u.err = false ∧ u.res0 = s.arg1 ∧
      u.memRead back.toNat s.arg1.toNat = s.memRead s.arg0.toNat s.arg1.toNat
end

