-- ==== Sys2Proof/Laws/State.lean ====
section
/-! SUPPORT. One lemma per field per update: what each named update of the state leaves in each field. -/

namespace Sys2Proof.Machine

@[simp] theorem State.raise_errcode (s : State) (e : ErrCode) : (s.raise e).errcode = e.code := rfl
@[simp] theorem State.raise_err (s : State) (e : ErrCode) : (s.raise e).err = true := rfl
@[simp] theorem State.raise_sticky (s : State) (e : ErrCode) : (s.raise e).sticky = true := rfl
@[simp] theorem State.raise_arg0 (s : State) (e : ErrCode) : (s.raise e).arg0 = s.arg0 := rfl
@[simp] theorem State.raise_arg1 (s : State) (e : ErrCode) : (s.raise e).arg1 = s.arg1 := rfl
@[simp] theorem State.raise_arg2 (s : State) (e : ErrCode) : (s.raise e).arg2 = s.arg2 := rfl
@[simp] theorem State.raise_res0 (s : State) (e : ErrCode) : (s.raise e).res0 = s.res0 := rfl
@[simp] theorem State.raise_res1 (s : State) (e : ErrCode) : (s.raise e).res1 = s.res1 := rfl
@[simp] theorem State.raise_prng (s : State) (e : ErrCode) : (s.raise e).prng = s.prng := rfl
@[simp] theorem State.raise_hash (s : State) (e : ErrCode) : (s.raise e).hash = s.hash := rfl
@[simp] theorem State.raise_hexp0 (s : State) (e : ErrCode) : (s.raise e).hexp0 = s.hexp0 := rfl
@[simp] theorem State.raise_hexp1 (s : State) (e : ErrCode) : (s.raise e).hexp1 = s.hexp1 := rfl
@[simp] theorem State.raise_hexp2 (s : State) (e : ErrCode) : (s.raise e).hexp2 = s.hexp2 := rfl
@[simp] theorem State.raise_hexp3 (s : State) (e : ErrCode) : (s.raise e).hexp3 = s.hexp3 := rfl
@[simp] theorem State.raise_key0 (s : State) (e : ErrCode) : (s.raise e).key0 = s.key0 := rfl
@[simp] theorem State.raise_key1 (s : State) (e : ErrCode) : (s.raise e).key1 = s.key1 := rfl
@[simp] theorem State.raise_key2 (s : State) (e : ErrCode) : (s.raise e).key2 = s.key2 := rfl
@[simp] theorem State.raise_key3 (s : State) (e : ErrCode) : (s.raise e).key3 = s.key3 := rfl
@[simp] theorem State.raise_ks (s : State) (e : ErrCode) : (s.raise e).ks = s.ks := rfl
@[simp] theorem State.raise_buf (s : State) (e : ErrCode) : (s.raise e).buf = s.buf := rfl
@[simp] theorem State.raise_resets (s : State) (e : ErrCode) : (s.raise e).resets = s.resets := rfl
@[simp] theorem State.raise_port (s : State) (e : ErrCode) : (s.raise e).port = s.port := rfl
@[simp] theorem State.raise_resp (s : State) (e : ErrCode) : (s.raise e).resp = s.resp := rfl

@[simp] theorem State.finish_errcode (s : State) : (s.finish).errcode = 0 := rfl
@[simp] theorem State.finish_err (s : State) : (s.finish).err = false := rfl
@[simp] theorem State.finish_sticky (s : State) : (s.finish).sticky = s.sticky := rfl
@[simp] theorem State.finish_arg0 (s : State) : (s.finish).arg0 = s.arg0 := rfl
@[simp] theorem State.finish_arg1 (s : State) : (s.finish).arg1 = s.arg1 := rfl
@[simp] theorem State.finish_arg2 (s : State) : (s.finish).arg2 = s.arg2 := rfl
@[simp] theorem State.finish_res0 (s : State) : (s.finish).res0 = s.res0 := rfl
@[simp] theorem State.finish_res1 (s : State) : (s.finish).res1 = s.res1 := rfl
@[simp] theorem State.finish_prng (s : State) : (s.finish).prng = s.prng := rfl
@[simp] theorem State.finish_hash (s : State) : (s.finish).hash = s.hash := rfl
@[simp] theorem State.finish_hexp0 (s : State) : (s.finish).hexp0 = s.hexp0 := rfl
@[simp] theorem State.finish_hexp1 (s : State) : (s.finish).hexp1 = s.hexp1 := rfl
@[simp] theorem State.finish_hexp2 (s : State) : (s.finish).hexp2 = s.hexp2 := rfl
@[simp] theorem State.finish_hexp3 (s : State) : (s.finish).hexp3 = s.hexp3 := rfl
@[simp] theorem State.finish_key0 (s : State) : (s.finish).key0 = s.key0 := rfl
@[simp] theorem State.finish_key1 (s : State) : (s.finish).key1 = s.key1 := rfl
@[simp] theorem State.finish_key2 (s : State) : (s.finish).key2 = s.key2 := rfl
@[simp] theorem State.finish_key3 (s : State) : (s.finish).key3 = s.key3 := rfl
@[simp] theorem State.finish_ks (s : State) : (s.finish).ks = s.ks := rfl
@[simp] theorem State.finish_buf (s : State) : (s.finish).buf = s.buf := rfl
@[simp] theorem State.finish_resets (s : State) : (s.finish).resets = s.resets := rfl
@[simp] theorem State.finish_port (s : State) : (s.finish).port = s.port := rfl
@[simp] theorem State.finish_resp (s : State) : (s.finish).resp = s.resp := rfl

@[simp] theorem State.writeByte_errcode (s : State) (a : Nat) (v : Byte) : (s.writeByte a v).errcode = s.errcode := rfl
@[simp] theorem State.writeByte_err (s : State) (a : Nat) (v : Byte) : (s.writeByte a v).err = s.err := rfl
@[simp] theorem State.writeByte_sticky (s : State) (a : Nat) (v : Byte) : (s.writeByte a v).sticky = s.sticky := rfl
@[simp] theorem State.writeByte_arg0 (s : State) (a : Nat) (v : Byte) : (s.writeByte a v).arg0 = s.arg0 := rfl
@[simp] theorem State.writeByte_arg1 (s : State) (a : Nat) (v : Byte) : (s.writeByte a v).arg1 = s.arg1 := rfl
@[simp] theorem State.writeByte_arg2 (s : State) (a : Nat) (v : Byte) : (s.writeByte a v).arg2 = s.arg2 := rfl
@[simp] theorem State.writeByte_res0 (s : State) (a : Nat) (v : Byte) : (s.writeByte a v).res0 = s.res0 := rfl
@[simp] theorem State.writeByte_res1 (s : State) (a : Nat) (v : Byte) : (s.writeByte a v).res1 = s.res1 := rfl
@[simp] theorem State.writeByte_prng (s : State) (a : Nat) (v : Byte) : (s.writeByte a v).prng = s.prng := rfl
@[simp] theorem State.writeByte_hash (s : State) (a : Nat) (v : Byte) : (s.writeByte a v).hash = s.hash := rfl
@[simp] theorem State.writeByte_hexp0 (s : State) (a : Nat) (v : Byte) : (s.writeByte a v).hexp0 = s.hexp0 := rfl
@[simp] theorem State.writeByte_hexp1 (s : State) (a : Nat) (v : Byte) : (s.writeByte a v).hexp1 = s.hexp1 := rfl
@[simp] theorem State.writeByte_hexp2 (s : State) (a : Nat) (v : Byte) : (s.writeByte a v).hexp2 = s.hexp2 := rfl
@[simp] theorem State.writeByte_hexp3 (s : State) (a : Nat) (v : Byte) : (s.writeByte a v).hexp3 = s.hexp3 := rfl
@[simp] theorem State.writeByte_key0 (s : State) (a : Nat) (v : Byte) : (s.writeByte a v).key0 = s.key0 := rfl
@[simp] theorem State.writeByte_key1 (s : State) (a : Nat) (v : Byte) : (s.writeByte a v).key1 = s.key1 := rfl
@[simp] theorem State.writeByte_key2 (s : State) (a : Nat) (v : Byte) : (s.writeByte a v).key2 = s.key2 := rfl
@[simp] theorem State.writeByte_key3 (s : State) (a : Nat) (v : Byte) : (s.writeByte a v).key3 = s.key3 := rfl
@[simp] theorem State.writeByte_ks (s : State) (a : Nat) (v : Byte) : (s.writeByte a v).ks = s.ks := rfl
@[simp] theorem State.writeByte_buf (s : State) (a : Nat) (v : Byte) : (s.writeByte a v).buf = s.buf.put a v := rfl
@[simp] theorem State.writeByte_resets (s : State) (a : Nat) (v : Byte) : (s.writeByte a v).resets = s.resets := rfl
@[simp] theorem State.writeByte_port (s : State) (a : Nat) (v : Byte) : (s.writeByte a v).port = s.port := rfl
@[simp] theorem State.writeByte_resp (s : State) (a : Nat) (v : Byte) : (s.writeByte a v).resp = s.resp := rfl

@[simp] theorem State.memWrite_errcode (s : State) (a : Nat) (bs : List Byte) : (s.memWrite a bs).errcode = s.errcode := rfl
@[simp] theorem State.memWrite_err (s : State) (a : Nat) (bs : List Byte) : (s.memWrite a bs).err = s.err := rfl
@[simp] theorem State.memWrite_sticky (s : State) (a : Nat) (bs : List Byte) : (s.memWrite a bs).sticky = s.sticky := rfl
@[simp] theorem State.memWrite_arg0 (s : State) (a : Nat) (bs : List Byte) : (s.memWrite a bs).arg0 = s.arg0 := rfl
@[simp] theorem State.memWrite_arg1 (s : State) (a : Nat) (bs : List Byte) : (s.memWrite a bs).arg1 = s.arg1 := rfl
@[simp] theorem State.memWrite_arg2 (s : State) (a : Nat) (bs : List Byte) : (s.memWrite a bs).arg2 = s.arg2 := rfl
@[simp] theorem State.memWrite_res0 (s : State) (a : Nat) (bs : List Byte) : (s.memWrite a bs).res0 = s.res0 := rfl
@[simp] theorem State.memWrite_res1 (s : State) (a : Nat) (bs : List Byte) : (s.memWrite a bs).res1 = s.res1 := rfl
@[simp] theorem State.memWrite_prng (s : State) (a : Nat) (bs : List Byte) : (s.memWrite a bs).prng = s.prng := rfl
@[simp] theorem State.memWrite_hash (s : State) (a : Nat) (bs : List Byte) : (s.memWrite a bs).hash = s.hash := rfl
@[simp] theorem State.memWrite_hexp0 (s : State) (a : Nat) (bs : List Byte) : (s.memWrite a bs).hexp0 = s.hexp0 := rfl
@[simp] theorem State.memWrite_hexp1 (s : State) (a : Nat) (bs : List Byte) : (s.memWrite a bs).hexp1 = s.hexp1 := rfl
@[simp] theorem State.memWrite_hexp2 (s : State) (a : Nat) (bs : List Byte) : (s.memWrite a bs).hexp2 = s.hexp2 := rfl
@[simp] theorem State.memWrite_hexp3 (s : State) (a : Nat) (bs : List Byte) : (s.memWrite a bs).hexp3 = s.hexp3 := rfl
@[simp] theorem State.memWrite_key0 (s : State) (a : Nat) (bs : List Byte) : (s.memWrite a bs).key0 = s.key0 := rfl
@[simp] theorem State.memWrite_key1 (s : State) (a : Nat) (bs : List Byte) : (s.memWrite a bs).key1 = s.key1 := rfl
@[simp] theorem State.memWrite_key2 (s : State) (a : Nat) (bs : List Byte) : (s.memWrite a bs).key2 = s.key2 := rfl
@[simp] theorem State.memWrite_key3 (s : State) (a : Nat) (bs : List Byte) : (s.memWrite a bs).key3 = s.key3 := rfl
@[simp] theorem State.memWrite_ks (s : State) (a : Nat) (bs : List Byte) : (s.memWrite a bs).ks = s.ks := rfl
@[simp] theorem State.memWrite_buf (s : State) (a : Nat) (bs : List Byte) : (s.memWrite a bs).buf = s.buf.putAll a bs := rfl
@[simp] theorem State.memWrite_resets (s : State) (a : Nat) (bs : List Byte) : (s.memWrite a bs).resets = s.resets := rfl
@[simp] theorem State.memWrite_port (s : State) (a : Nat) (bs : List Byte) : (s.memWrite a bs).port = s.port := rfl
@[simp] theorem State.memWrite_resp (s : State) (a : Nat) (bs : List Byte) : (s.memWrite a bs).resp = s.resp := rfl

@[simp] theorem State.setKeyBytes_errcode (s : State) (k : List Byte) : (s.setKeyBytes k).errcode = s.errcode := rfl
@[simp] theorem State.setKeyBytes_err (s : State) (k : List Byte) : (s.setKeyBytes k).err = s.err := rfl
@[simp] theorem State.setKeyBytes_sticky (s : State) (k : List Byte) : (s.setKeyBytes k).sticky = s.sticky := rfl
@[simp] theorem State.setKeyBytes_arg0 (s : State) (k : List Byte) : (s.setKeyBytes k).arg0 = s.arg0 := rfl
@[simp] theorem State.setKeyBytes_arg1 (s : State) (k : List Byte) : (s.setKeyBytes k).arg1 = s.arg1 := rfl
@[simp] theorem State.setKeyBytes_arg2 (s : State) (k : List Byte) : (s.setKeyBytes k).arg2 = s.arg2 := rfl
@[simp] theorem State.setKeyBytes_res0 (s : State) (k : List Byte) : (s.setKeyBytes k).res0 = s.res0 := rfl
@[simp] theorem State.setKeyBytes_res1 (s : State) (k : List Byte) : (s.setKeyBytes k).res1 = s.res1 := rfl
@[simp] theorem State.setKeyBytes_prng (s : State) (k : List Byte) : (s.setKeyBytes k).prng = s.prng := rfl
@[simp] theorem State.setKeyBytes_hash (s : State) (k : List Byte) : (s.setKeyBytes k).hash = s.hash := rfl
@[simp] theorem State.setKeyBytes_hexp0 (s : State) (k : List Byte) : (s.setKeyBytes k).hexp0 = s.hexp0 := rfl
@[simp] theorem State.setKeyBytes_hexp1 (s : State) (k : List Byte) : (s.setKeyBytes k).hexp1 = s.hexp1 := rfl
@[simp] theorem State.setKeyBytes_hexp2 (s : State) (k : List Byte) : (s.setKeyBytes k).hexp2 = s.hexp2 := rfl
@[simp] theorem State.setKeyBytes_hexp3 (s : State) (k : List Byte) : (s.setKeyBytes k).hexp3 = s.hexp3 := rfl
@[simp] theorem State.setKeyBytes_key0 (s : State) (k : List Byte) : (s.setKeyBytes k).key0 = wordOf (k.take 4) := rfl
@[simp] theorem State.setKeyBytes_key1 (s : State) (k : List Byte) : (s.setKeyBytes k).key1 = wordOf ((k.drop 4).take 4) := rfl
@[simp] theorem State.setKeyBytes_key2 (s : State) (k : List Byte) : (s.setKeyBytes k).key2 = wordOf ((k.drop 8).take 4) := rfl
@[simp] theorem State.setKeyBytes_key3 (s : State) (k : List Byte) : (s.setKeyBytes k).key3 = wordOf ((k.drop 12).take 4) := rfl
@[simp] theorem State.setKeyBytes_ks (s : State) (k : List Byte) : (s.setKeyBytes k).ks = s.ks := rfl
@[simp] theorem State.setKeyBytes_buf (s : State) (k : List Byte) : (s.setKeyBytes k).buf = s.buf := rfl
@[simp] theorem State.setKeyBytes_resets (s : State) (k : List Byte) : (s.setKeyBytes k).resets = s.resets := rfl
@[simp] theorem State.setKeyBytes_port (s : State) (k : List Byte) : (s.setKeyBytes k).port = s.port := rfl
@[simp] theorem State.setKeyBytes_resp (s : State) (k : List Byte) : (s.setKeyBytes k).resp = s.resp := rfl

@[simp] theorem State.respond_errcode (s : State) (r : Response) : (s.respond r).errcode = s.errcode := rfl
@[simp] theorem State.respond_err (s : State) (r : Response) : (s.respond r).err = s.err := rfl
@[simp] theorem State.respond_sticky (s : State) (r : Response) : (s.respond r).sticky = s.sticky := rfl
@[simp] theorem State.respond_arg0 (s : State) (r : Response) : (s.respond r).arg0 = s.arg0 := rfl
@[simp] theorem State.respond_arg1 (s : State) (r : Response) : (s.respond r).arg1 = s.arg1 := rfl
@[simp] theorem State.respond_arg2 (s : State) (r : Response) : (s.respond r).arg2 = s.arg2 := rfl
@[simp] theorem State.respond_res0 (s : State) (r : Response) : (s.respond r).res0 = s.res0 := rfl
@[simp] theorem State.respond_res1 (s : State) (r : Response) : (s.respond r).res1 = s.res1 := rfl
@[simp] theorem State.respond_prng (s : State) (r : Response) : (s.respond r).prng = s.prng := rfl
@[simp] theorem State.respond_hash (s : State) (r : Response) : (s.respond r).hash = s.hash := rfl
@[simp] theorem State.respond_hexp0 (s : State) (r : Response) : (s.respond r).hexp0 = s.hexp0 := rfl
@[simp] theorem State.respond_hexp1 (s : State) (r : Response) : (s.respond r).hexp1 = s.hexp1 := rfl
@[simp] theorem State.respond_hexp2 (s : State) (r : Response) : (s.respond r).hexp2 = s.hexp2 := rfl
@[simp] theorem State.respond_hexp3 (s : State) (r : Response) : (s.respond r).hexp3 = s.hexp3 := rfl
@[simp] theorem State.respond_key0 (s : State) (r : Response) : (s.respond r).key0 = s.key0 := rfl
@[simp] theorem State.respond_key1 (s : State) (r : Response) : (s.respond r).key1 = s.key1 := rfl
@[simp] theorem State.respond_key2 (s : State) (r : Response) : (s.respond r).key2 = s.key2 := rfl
@[simp] theorem State.respond_key3 (s : State) (r : Response) : (s.respond r).key3 = s.key3 := rfl
@[simp] theorem State.respond_ks (s : State) (r : Response) : (s.respond r).ks = s.ks := rfl
@[simp] theorem State.respond_buf (s : State) (r : Response) : (s.respond r).buf = s.buf := rfl
@[simp] theorem State.respond_resets (s : State) (r : Response) : (s.respond r).resets = s.resets := rfl
@[simp] theorem State.respond_port (s : State) (r : Response) : (s.respond r).port = s.port := rfl
@[simp] theorem State.respond_resp (s : State) (r : Response) : (s.respond r).resp = some r := rfl

@[simp] theorem State.softReset_errcode (s : State) : s.softReset.errcode = 0 := rfl
@[simp] theorem State.softReset_err (s : State) : s.softReset.err = false := rfl
@[simp] theorem State.softReset_sticky (s : State) : s.softReset.sticky = false := rfl
@[simp] theorem State.softReset_arg0 (s : State) : s.softReset.arg0 = 0 := rfl
@[simp] theorem State.softReset_arg1 (s : State) : s.softReset.arg1 = 0 := rfl
@[simp] theorem State.softReset_arg2 (s : State) : s.softReset.arg2 = 0 := rfl
@[simp] theorem State.softReset_res0 (s : State) : s.softReset.res0 = 0 := rfl
@[simp] theorem State.softReset_res1 (s : State) : s.softReset.res1 = 0 := rfl
@[simp] theorem State.softReset_prng (s : State) : s.softReset.prng = Prng.reset := rfl
@[simp] theorem State.softReset_hash (s : State) : s.softReset.hash = HashEngine.reset := rfl
@[simp] theorem State.softReset_hexp0 (s : State) : s.softReset.hexp0 = 0 := rfl
@[simp] theorem State.softReset_hexp1 (s : State) : s.softReset.hexp1 = 0 := rfl
@[simp] theorem State.softReset_hexp2 (s : State) : s.softReset.hexp2 = 0 := rfl
@[simp] theorem State.softReset_hexp3 (s : State) : s.softReset.hexp3 = 0 := rfl
@[simp] theorem State.softReset_key0 (s : State) : s.softReset.key0 = 0 := rfl
@[simp] theorem State.softReset_key1 (s : State) : s.softReset.key1 = 0 := rfl
@[simp] theorem State.softReset_key2 (s : State) : s.softReset.key2 = 0 := rfl
@[simp] theorem State.softReset_key3 (s : State) : s.softReset.key3 = 0 := rfl
@[simp] theorem State.softReset_ks (s : State) : s.softReset.ks = KeySchedule.reset := rfl
@[simp] theorem State.softReset_buf (s : State) : s.softReset.buf = s.buf := rfl
@[simp] theorem State.softReset_resets (s : State) : s.softReset.resets = s.resets := rfl
@[simp] theorem State.softReset_port (s : State) : s.softReset.port = s.port := rfl
@[simp] theorem State.softReset_resp (s : State) : s.softReset.resp = s.resp := rfl

@[simp] theorem State.hardwareReset_errcode (s : State) : s.hardwareReset.errcode = 0 := rfl
@[simp] theorem State.hardwareReset_err (s : State) : s.hardwareReset.err = false := rfl
@[simp] theorem State.hardwareReset_sticky (s : State) : s.hardwareReset.sticky = false := rfl
@[simp] theorem State.hardwareReset_arg0 (s : State) : s.hardwareReset.arg0 = 0 := rfl
@[simp] theorem State.hardwareReset_arg1 (s : State) : s.hardwareReset.arg1 = 0 := rfl
@[simp] theorem State.hardwareReset_arg2 (s : State) : s.hardwareReset.arg2 = 0 := rfl
@[simp] theorem State.hardwareReset_res0 (s : State) : s.hardwareReset.res0 = 0 := rfl
@[simp] theorem State.hardwareReset_res1 (s : State) : s.hardwareReset.res1 = 0 := rfl
@[simp] theorem State.hardwareReset_prng (s : State) : s.hardwareReset.prng = Prng.reset := rfl
@[simp] theorem State.hardwareReset_hash (s : State) : s.hardwareReset.hash = HashEngine.reset := rfl
@[simp] theorem State.hardwareReset_hexp0 (s : State) : s.hardwareReset.hexp0 = 0 := rfl
@[simp] theorem State.hardwareReset_hexp1 (s : State) : s.hardwareReset.hexp1 = 0 := rfl
@[simp] theorem State.hardwareReset_hexp2 (s : State) : s.hardwareReset.hexp2 = 0 := rfl
@[simp] theorem State.hardwareReset_hexp3 (s : State) : s.hardwareReset.hexp3 = 0 := rfl
@[simp] theorem State.hardwareReset_key0 (s : State) : s.hardwareReset.key0 = 0 := rfl
@[simp] theorem State.hardwareReset_key1 (s : State) : s.hardwareReset.key1 = 0 := rfl
@[simp] theorem State.hardwareReset_key2 (s : State) : s.hardwareReset.key2 = 0 := rfl
@[simp] theorem State.hardwareReset_key3 (s : State) : s.hardwareReset.key3 = 0 := rfl
@[simp] theorem State.hardwareReset_ks (s : State) : s.hardwareReset.ks = KeySchedule.reset := rfl
@[simp] theorem State.hardwareReset_buf (s : State) : s.hardwareReset.buf = [] := rfl
@[simp] theorem State.hardwareReset_resets (s : State) : s.hardwareReset.resets = s.resets + 1 := rfl
@[simp] theorem State.hardwareReset_port (s : State) : s.hardwareReset.port = s.port := rfl
@[simp] theorem State.hardwareReset_resp (s : State) : s.hardwareReset.resp = none := rfl

@[simp] theorem Prng.advance_pm (g : Prng) : g.advance.pm = g.pm := rfl
@[simp] theorem Prng.advance_pa (g : Prng) : g.advance.pa = g.pa := rfl
@[simp] theorem Prng.advance_pc (g : Prng) : g.advance.pc = g.pc := rfl
@[simp] theorem Prng.advance_px0 (g : Prng) : g.advance.px0 = g.px0 := rfl
@[simp] theorem Prng.advance_px (g : Prng) : g.advance.px = lcgStep g.pm g.pa g.pc g.px := rfl
@[simp] theorem Prng.advance_phcnt (g : Prng) : g.advance.phcnt = g.phcnt + 1 := rfl
@[simp] theorem Prng.advance_pvalid (g : Prng) : g.advance.pvalid = g.pvalid := rfl
@[simp] theorem Prng.advance_hist (g : Prng) : g.advance.hist = g.hist ++ [lcgStep g.pm g.pa g.pc g.px] := rfl

@[simp] theorem Prng.resetGen_pm (g : Prng) : g.resetGen.pm = g.pm := rfl
@[simp] theorem Prng.resetGen_pa (g : Prng) : g.resetGen.pa = g.pa := rfl
@[simp] theorem Prng.resetGen_pc (g : Prng) : g.resetGen.pc = g.pc := rfl
@[simp] theorem Prng.resetGen_px0 (g : Prng) : g.resetGen.px0 = g.px0 := rfl
@[simp] theorem Prng.resetGen_px (g : Prng) : g.resetGen.px = g.px0 := rfl
@[simp] theorem Prng.resetGen_phcnt (g : Prng) : g.resetGen.phcnt = 0 := rfl
@[simp] theorem Prng.resetGen_pvalid (g : Prng) : g.resetGen.pvalid = g.pvalid := rfl
@[simp] theorem Prng.resetGen_hist (g : Prng) : g.resetGen.hist = [] := rfl

@[simp] theorem HashEngine.addBack_ha (h : HashEngine) (x : HashWork) : (h.addBack x).ha = h.ha + x.a := rfl
@[simp] theorem HashEngine.addBack_hb (h : HashEngine) (x : HashWork) : (h.addBack x).hb = h.hb + x.b := rfl
@[simp] theorem HashEngine.addBack_hc (h : HashEngine) (x : HashWork) : (h.addBack x).hc = h.hc + x.c := rfl
@[simp] theorem HashEngine.addBack_hd (h : HashEngine) (x : HashWork) : (h.addBack x).hd = h.hd + x.d := rfl
@[simp] theorem HashEngine.addBack_hlen (h : HashEngine) (x : HashWork) : (h.addBack x).hlen = h.hlen := rfl
@[simp] theorem HashEngine.addBack_hblk (h : HashEngine) (x : HashWork) : (h.addBack x).hblk = h.hblk := rfl
@[simp] theorem HashEngine.addBack_hfin (h : HashEngine) (x : HashWork) : (h.addBack x).hfin = h.hfin := rfl

@[simp] theorem HashEngine.compress_hlen (h : HashEngine) (blk : List Byte) :
    (h.compress blk).hlen = h.hlen := HashEngine.addBack_hlen h _
@[simp] theorem HashEngine.compress_hblk (h : HashEngine) (blk : List Byte) :
    (h.compress blk).hblk = h.hblk := HashEngine.addBack_hblk h _
@[simp] theorem HashEngine.compress_hfin (h : HashEngine) (blk : List Byte) :
    (h.compress blk).hfin = h.hfin := HashEngine.addBack_hfin h _

@[simp] theorem HashEngine.buffer_ha (h : HashEngine) (b : Byte) :
    (h.buffer b).ha = h.ha := rfl
@[simp] theorem HashEngine.buffer_hb (h : HashEngine) (b : Byte) :
    (h.buffer b).hb = h.hb := rfl
@[simp] theorem HashEngine.buffer_hc (h : HashEngine) (b : Byte) :
    (h.buffer b).hc = h.hc := rfl
@[simp] theorem HashEngine.buffer_hd (h : HashEngine) (b : Byte) :
    (h.buffer b).hd = h.hd := rfl
@[simp] theorem HashEngine.buffer_hlen (h : HashEngine) (b : Byte) :
    (h.buffer b).hlen = h.hlen + 1 := rfl
@[simp] theorem HashEngine.buffer_hblk (h : HashEngine) (b : Byte) :
    (h.buffer b).hblk = writeBlockByte h.hblk (h.hlen.toNat % Config.hblock) b := rfl
@[simp] theorem HashEngine.buffer_hfin (h : HashEngine) (b : Byte) :
    (h.buffer b).hfin = h.hfin := rfl

@[simp] theorem HashEngine.flush_ha (h : HashEngine) : h.flush.ha = (h.compress h.hblk).ha := by
  rw [HashEngine.flush]
@[simp] theorem HashEngine.flush_hb (h : HashEngine) : h.flush.hb = (h.compress h.hblk).hb := by
  rw [HashEngine.flush]
@[simp] theorem HashEngine.flush_hc (h : HashEngine) : h.flush.hc = (h.compress h.hblk).hc := by
  rw [HashEngine.flush]
@[simp] theorem HashEngine.flush_hd (h : HashEngine) : h.flush.hd = (h.compress h.hblk).hd := by
  rw [HashEngine.flush]
@[simp] theorem HashEngine.flush_hlen (h : HashEngine) : h.flush.hlen = h.hlen := by
  rw [HashEngine.flush]; exact HashEngine.compress_hlen h h.hblk
@[simp] theorem HashEngine.flush_hfin (h : HashEngine) : h.flush.hfin = h.hfin := by
  rw [HashEngine.flush]; exact HashEngine.compress_hfin h h.hblk
@[simp] theorem HashEngine.flush_hblk (h : HashEngine) : h.flush.hblk = [] := rfl

@[simp] theorem HashEngine.final_hlen (h : HashEngine) : h.final.hlen = h.hlen := rfl
@[simp] theorem HashEngine.final_hfin (h : HashEngine) : h.final.hfin = true := rfl
@[simp] theorem HashEngine.init_ha : HashEngine.init.ha = 0x67452301 := rfl
@[simp] theorem HashEngine.init_hb : HashEngine.init.hb = 0xEFCDAB89 := rfl
@[simp] theorem HashEngine.init_hc : HashEngine.init.hc = 0x98BADCFE := rfl
@[simp] theorem HashEngine.init_hd : HashEngine.init.hd = 0x10325476 := rfl
@[simp] theorem HashEngine.init_hlen : HashEngine.init.hlen = 0 := rfl
@[simp] theorem HashEngine.init_hblk : HashEngine.init.hblk = [] := rfl
@[simp] theorem HashEngine.init_hfin : HashEngine.init.hfin = false := rfl

@[simp] theorem State.writeReg_errcode (s : State) (r : Reg) (v : Word) : (s.writeReg r v).errcode = s.errcode := by
  cases r <;> rfl
@[simp] theorem State.writeReg_err (s : State) (r : Reg) (v : Word) : (s.writeReg r v).err = s.err := by
  cases r <;> rfl
@[simp] theorem State.writeReg_sticky (s : State) (r : Reg) (v : Word) : (s.writeReg r v).sticky = s.sticky := by
  cases r <;> rfl
@[simp] theorem State.writeReg_res0 (s : State) (r : Reg) (v : Word) : (s.writeReg r v).res0 = s.res0 := by
  cases r <;> rfl
@[simp] theorem State.writeReg_res1 (s : State) (r : Reg) (v : Word) : (s.writeReg r v).res1 = s.res1 := by
  cases r <;> rfl
@[simp] theorem State.writeReg_hash (s : State) (r : Reg) (v : Word) : (s.writeReg r v).hash = s.hash := by
  cases r <;> rfl
@[simp] theorem State.writeReg_ks (s : State) (r : Reg) (v : Word) : (s.writeReg r v).ks = s.ks := by
  cases r <;> rfl
@[simp] theorem State.writeReg_buf (s : State) (r : Reg) (v : Word) : (s.writeReg r v).buf = s.buf := by
  cases r <;> rfl
@[simp] theorem State.writeReg_resets (s : State) (r : Reg) (v : Word) : (s.writeReg r v).resets = s.resets := by
  cases r <;> rfl
@[simp] theorem State.writeReg_port (s : State) (r : Reg) (v : Word) : (s.writeReg r v).port = s.port := by
  cases r <;> rfl
@[simp] theorem State.writeReg_resp (s : State) (r : Reg) (v : Word) : (s.writeReg r v).resp = s.resp := by
  cases r <;> rfl

@[simp] theorem State.readByte_raise (s : State) (e : ErrCode) (a : Nat) :
    (s.raise e).readByte a = s.readByte a := rfl

@[simp] theorem State.readByte_finish (s : State) (a : Nat) : s.finish.readByte a = s.readByte a := rfl

@[simp] theorem State.readByte_respond (s : State) (r : Response) (a : Nat) :
    (s.respond r).readByte a = s.readByte a := rfl

@[simp] theorem State.readByte_softReset (s : State) (a : Nat) :
    s.softReset.readByte a = s.readByte a := rfl

end Sys2Proof.Machine
end

