-- ==== Sys2Proof/Laws/Bytes.lean ====
section
/-! SUPPORT. The laws of byte order and rotation. -/

namespace Sys2Proof.Machine

@[simp] theorem length_le32 (v : Word) : (le32 v).length = 4 := rfl

@[simp] theorem length_le64 (v : DWord) : (le64 v).length = 8 := rfl

/-- `le` inverts `LE32` (00_scope.md R12). -/
theorem le_le32 (v : Word) : le (le32 v) = v.toNat := by
  simp [le32, le, BitVec.extractLsb'_toNat, Nat.shiftRight_eq_div_pow]
  omega

@[simp] theorem wordOf_le32 (v : Word) : wordOf (le32 v) = v := by
  simp [wordOf, le_le32]

/-- `LE32` inverts `le` on four bytes. -/
theorem le32_wordOf {s : List Byte} (h : s.length = 4) : le32 (wordOf s) = s := by
  obtain ⟨a, b, c, d, rfl⟩ : ∃ a b c d, s = [a, b, c, d] := by
    match s, h with
    | [a, b, c, d], _ => exact ⟨a, b, c, d, rfl⟩
  have ha := a.isLt; have hb := b.isLt; have hc := c.isLt; have hd := d.isLt
  simp only [le32, wordOf, le, List.cons.injEq, and_true]
  refine ⟨?_, ?_, ?_, ?_⟩ <;> apply BitVec.eq_of_toNat_eq <;>
    simp [BitVec.extractLsb'_toNat, Nat.shiftRight_eq_div_pow] <;> omega

/-- Eight bytes are their two words, serialized. -/
theorem toBytes_ofBytes_words {s : List Byte} (h : s.length = 8) :
    le32 (wordOf (s.take 4)) ++ le32 (wordOf ((s.drop 4).take 4)) = s := by
  rw [le32_wordOf (by simp [h]), le32_wordOf (by simp [h])]
  rw [List.take_of_length_le (l := s.drop 4) (by simp [h]), List.take_append_drop]

theorem wordOf_take_left (v : Word) (t : List Byte) : wordOf ((le32 v ++ t).take 4) = v := by
  rw [List.take_append_of_le_length (by simp), List.take_of_length_le (by simp), wordOf_le32]

theorem wordOf_drop_left (v w : Word) (t : List Byte) :
    wordOf (((le32 v ++ (le32 w ++ t)).drop 4).take 4) = w := by
  rw [show (le32 v ++ (le32 w ++ t)).drop 4 = le32 w ++ t from rfl, wordOf_take_left]

/-- Rotating right undoes rotating left (00_scope.md R11). -/
theorem rotr32_rotl32 (x : Word) {n : Nat} (h : n < 32) : rotr32 (rotl32 x n) n = x := by
  unfold rotr32 rotl32
  apply BitVec.eq_of_getElem_eq
  intro i hi
  simp only [BitVec.getElem_rotateLeft]
  split <;> split <;> first | omega | (congr 1; omega)

/-- Rotating left undoes rotating right. -/
theorem rotl32_rotr32 (x : Word) {n : Nat} (h : n < 32) : rotl32 (rotr32 x n) n = x := by
  unfold rotr32 rotl32
  apply BitVec.eq_of_getElem_eq
  intro i hi
  simp only [BitVec.getElem_rotateLeft]
  split <;> split <;> first | omega | (congr 1; omega)

@[simp] theorem length_xorBytes (x y : List Byte) :
    (xorBytes x y).length = min x.length y.length := by
  simp [xorBytes]

/-- XOR with the same string twice gives the string back. -/
theorem xorBytes_cancel {x y : List Byte} (h : x.length = y.length) :
    xorBytes (xorBytes x y) y = x := by
  induction x generalizing y with
  | nil => rfl
  | cons a x ih =>
    cases y with
    | nil => simp at h
    | cons b y =>
      have hab : a ^^^ b ^^^ b = a := by rw [BitVec.xor_assoc, BitVec.xor_self, BitVec.xor_zero]
      have hrec := ih (y := y) (by simpa using h)
      unfold xorBytes at hrec ⊢
      simp [hab, hrec]

@[simp] theorem State.length_keyBytes (s : State) : s.keyBytes.length = 16 := rfl

/-- Sixteen bytes written to the KEY registers read back (10_state.md R46). -/
theorem State.keyBytes_setKeyBytes (s : State) {k : List Byte} (h : k.length = 16) :
    (s.setKeyBytes k).keyBytes = k := by
  unfold State.keyBytes
  simp only [State.setKeyBytes_key0, State.setKeyBytes_key1, State.setKeyBytes_key2,
    State.setKeyBytes_key3]
  rw [le32_wordOf (by simp [h]), le32_wordOf (by simp [h]), le32_wordOf (by simp [h]),
    le32_wordOf (by simp [h])]
  have h3 : (k.drop 12).take 4 = k.drop 12 := List.take_of_length_le (by simp [h])
  rw [h3]
  have e1 : k.drop 8 = (k.drop 8).take 4 ++ k.drop 12 := by
    conv_lhs => rw [← List.take_append_drop 4 (k.drop 8)]
    simp
  have e2 : k.drop 4 = (k.drop 4).take 4 ++ k.drop 8 := by
    conv_lhs => rw [← List.take_append_drop 4 (k.drop 4)]
    simp
  rw [List.append_assoc, List.append_assoc, ← e1, ← e2, List.take_append_drop]

end Sys2Proof.Machine
end

