-- ==== Sys2Proof/Laws/Cipher.lean ====
section
/-! SUPPORT. The laws of the Block Cipher Engine and of the chained mode: lengths, and that each decryption
undoes its encryption, and the small laws of the equations that Safety.lean states of them. -/

namespace Sys2Proof.Machine

@[simp] theorem length_keyWords (key : List Byte) (b : Nat) :
    (keyWords key b).length = (b + 3) / 4 := by
  simp [keyWords]

@[simp] theorem length_initialSchedule (t : Nat) : (initialSchedule t).length = t := by
  induction t with
  | zero => rfl
  | succ t ih => simp [initialSchedule, ih]

@[simp] theorem length_mixRounds_s (n : Nat) (x : MixWork) :
    (mixRounds n x).s.length = x.s.length := by
  induction n generalizing x with
  | zero => rfl
  | succ n ih => rw [mixRounds, ih]; simp [mixRound]

/-- The last of `n + 1` mixing rounds, on the state the first `n` leave. -/
theorem mixRounds_succ (n : Nat) (x : MixWork) :
    mixRounds (n + 1) x = mixRound (mixRounds n x) := by
  induction n generalizing x with
  | zero => rfl
  | succ n ih => rw [mixRounds, ih, ← mixRounds]

@[simp] theorem length_mixRounds_l (n : Nat) (x : MixWork) :
    (mixRounds n x).l.length = x.l.length := by
  induction n with
  | zero => rfl
  | succ n ih => rw [mixRounds_succ]; simp [mixRound, ih]

/-- The indices of mixing round `n` are `n mod t` and `n mod c` (43_cipher.md R203). -/
theorem mixRounds_indices (n : Nat) (s l : List Word) :
    let x := mixRounds n { s := s, l := l, a := 0, b := 0, i := 0, j := 0 }
    x.i = n % s.length ∧ x.j = n % l.length := by
  induction n with
  | zero => exact ⟨(Nat.zero_mod _).symm, (Nat.zero_mod _).symm⟩
  | succ n ih =>
    rw [mixRounds_succ, mixRound]
    simp only [ih.1, ih.2, length_mixRounds_s, length_mixRounds_l]
    exact ⟨Nat.mod_add_mod _ _ _, Nat.mod_add_mod _ _ _⟩

/-- A word that a schedule has filled. -/
theorem scheduleWord_of_lt {s : List Word} {i : Nat} (h : i < s.length) :
    scheduleWord s i = s.getD i 0 := by
  simp [scheduleWord, h]

/-- A key schedule for `r` rounds has `2·(r+1)` words (10_state.md R48). -/
@[simp] theorem length_keySchedule (key : List Byte) (b r : Nat) :
    (keySchedule key b r).length = 2 * (r + 1) := by
  simp [keySchedule]

@[simp] theorem BlockWords.length_toBytes (x : BlockWords) : x.toBytes.length = 8 := rfl

@[simp] theorem BlockWords.ofBytes_toBytes (x : BlockWords) : BlockWords.ofBytes x.toBytes = x := by
  obtain ⟨a, b⟩ := x
  simp only [BlockWords.ofBytes, BlockWords.toBytes, BlockWords.mk.injEq]
  exact ⟨wordOf_take_left a _, by simpa using wordOf_drop_left a b []⟩

theorem BlockWords.toBytes_ofBytes {s : List Byte} (h : s.length = 8) :
    (BlockWords.ofBytes s).toBytes = s := toBytes_ofBytes_words h

theorem xor_xor_cancel (a b : Word) : a ^^^ b ^^^ b = a := by
  rw [BitVec.xor_assoc, BitVec.xor_self, BitVec.xor_zero]

/-- A round of decryption undoes the same round of encryption (43_cipher.md R208). -/
theorem decRound_encRound (s : List Word) (i : Nat) (x : BlockWords) :
    decRound s i (encRound s i x) = x := by
  obtain ⟨a, b⟩ := x
  simp only [decRound, encRound, BitVec.add_sub_cancel]
  rw [rotr32_rotl32 _ (Nat.mod_lt _ (by decide)), xor_xor_cancel,
    rotr32_rotl32 _ (Nat.mod_lt _ (by decide)), xor_xor_cancel]

/-- A round of encryption undoes the same round of decryption. -/
theorem encRound_decRound (s : List Word) (i : Nat) (x : BlockWords) :
    encRound s i (decRound s i x) = x := by
  obtain ⟨a, b⟩ := x
  simp only [decRound, encRound, xor_xor_cancel]
  rw [rotl32_rotr32 _ (Nat.mod_lt _ (by decide)), BitVec.sub_add_cancel, xor_xor_cancel,
    rotl32_rotr32 _ (Nat.mod_lt _ (by decide)), BitVec.sub_add_cancel]

theorem decRounds_encRounds (s : List Word) (n : Nat) (x : BlockWords) :
    decRounds s n (encRounds s n x) = x := by
  induction n with
  | zero => rfl
  | succ n ih => rw [encRounds, decRounds, decRound_encRound, ih]

theorem encRounds_decRounds (s : List Word) (n : Nat) (x : BlockWords) :
    encRounds s n (decRounds s n x) = x := by
  induction n generalizing x with
  | zero => rfl
  | succ n ih => rw [decRounds, encRounds, ih, encRound_decRound]

@[simp] theorem KeySchedule.length_encrypt (k : KeySchedule) (blk : List Byte) :
    (k.encrypt blk).length = 8 := rfl

@[simp] theorem KeySchedule.length_decrypt (k : KeySchedule) (blk : List Byte) :
    (k.decrypt blk).length = 8 := rfl

/-- Decryption undoes encryption of a block (43_cipher.md R208). -/
theorem KeySchedule.decrypt_encrypt (k : KeySchedule) {x : List Byte} (h : x.length = 8) :
    k.decrypt (k.encrypt x) = x := by
  simp only [KeySchedule.encrypt, KeySchedule.decrypt, ecbEncrypt, ecbDecrypt,
    BlockWords.ofBytes_toBytes, decRounds_encRounds, BitVec.add_sub_cancel]
  exact BlockWords.toBytes_ofBytes h

@[simp] theorem length_pad8 (d : List Byte) : (pad8 d).length = 8 * (d.length / 8 + 1) := by
  simp [pad8]; omega

@[simp] theorem length_cbcEncBlocks (k : KeySchedule) (n : Nat) (prev q : List Byte) :
    (cbcEncBlocks k n prev q).length = 8 * n := by
  induction n generalizing prev q with
  | zero => rfl
  | succ n ih => simp [cbcEncBlocks, ih]; omega

/-- The length of a payload (44_cbc.md R223). -/
@[simp] theorem length_cbcEncrypt (k : KeySchedule) (iv p : List Byte) :
    (cbcEncrypt k iv p).length = payloadLength p.length := by
  simp [cbcEncrypt, payloadLength]

/-- Decrypting `n` blocks gives `8·n` bytes. -/
theorem length_cbcDecBlocks (k : KeySchedule) (n : Nat) (prev y : List Byte)
    (hp : prev.length = 8) (hy : 8 * n ≤ y.length) : (cbcDecBlocks k n prev y).length = 8 * n := by
  induction n generalizing prev y with
  | zero => rfl
  | succ n ih =>
    have hc : (y.take 8).length = 8 := by simp; omega
    simp only [cbcDecBlocks, List.length_append, length_xorBytes, KeySchedule.length_decrypt, hp,
      ih _ (y.drop 8) hc (by simp; omega)]
    omega

@[simp] theorem Prng.length_makeIV (g : Prng) : g.makeIV.1.length = 8 := rfl

/-- What unpadding can answer: the string less its last 1 to 8 bytes (44_cbc.md R221). -/
theorem unpad8_eq_some {q p : List Byte} (h : unpad8 q = some p) :
    1 ≤ (q.getLastD 0).toNat ∧ (q.getLastD 0).toNat ≤ 8 ∧
      p = q.take (q.length - (q.getLastD 0).toNat) := by
  simp only [unpad8] at h
  split at h
  · contradiction
  · rename_i hp
    exact ⟨by omega, by omega, (Option.some.inj h).symm⟩

/-- The first block of a string that starts with a block. -/
theorem blockAt_append_zero {c rest : List Byte} (h : c.length = 8) :
    blockAt (c ++ rest) 0 = c := by
  simp [blockAt, h]

/-- The later blocks of a string that starts with a block. -/
theorem blockAt_append_succ {c rest : List Byte} (h : c.length = 8) (i : Nat) :
    blockAt (c ++ rest) (i + 1) = blockAt rest i := by
  rw [blockAt, blockAt, show 8 * (i + 1) = c.length + 8 * i by omega, List.drop_length_add_append]

/-- The blocks after the first. -/
theorem blockAt_drop (q : List Byte) (i : Nat) : blockAt (q.drop 8) i = blockAt q (i + 1) := by
  rw [blockAt, blockAt, List.drop_drop, Nat.mul_succ, Nat.add_comm]

end Sys2Proof.Machine
end

