-- ==== Sys2Proof/Laws/Command.lean ====
section
/-! SUPPORT. What a command can do: its checks, its two ends, and that it always ends in a next state. -/

namespace Sys2Proof.Machine

@[simp] theorem firstFailure_nil : firstFailure [] = none := rfl

@[simp] theorem firstFailure_cons (ok : Bool) (e : ErrCode) (checks : List (Bool × ErrCode)) :
    firstFailure ((ok, e) :: checks) = if ok then firstFailure checks else some e := rfl

/-- No check fails exactly when every check holds. -/
theorem firstFailure_eq_none_iff (checks : List (Bool × ErrCode)) :
    firstFailure checks = none ↔ ∀ c ∈ checks, c.1 = true := by
  induction checks with
  | nil => simp
  | cons c checks ih =>
    obtain ⟨ok, e⟩ := c
    cases ok <;> simp [ih]

/-- The error reported is the error of one of the checks. -/
theorem firstFailure_mem {checks : List (Bool × ErrCode)} {e : ErrCode}
    (h : firstFailure checks = some e) : (false, e) ∈ checks := by
  induction checks with
  | nil => simp at h
  | cons c checks ih =>
    obtain ⟨ok, e'⟩ := c
    cases ok
    · simp at h; simp [h]
    · exact List.mem_cons_of_mem _ (ih (by simpa using h))

/-- Everything a command can do: fail with the error of its first failing check, changing nothing else, or
have its effect and end successfully. -/
theorem command_cases (checks : List (Bool × ErrCode)) (operation : State → State) (s : State) :
    (∃ e, firstFailure checks = some e ∧ command checks operation s = .next (s.raise e)) ∨
    (firstFailure checks = none ∧ command checks operation s = .next (operation s).finish) := by
  unfold command
  cases h : firstFailure checks with
  | some e => exact .inl ⟨e, rfl, rfl⟩
  | none => exact .inr ⟨rfl, rfl⟩

/-- The codes are the numbers 1 to 10 (60_exceptions.md R250). -/
theorem ErrCode.code_range (e : ErrCode) : 1 ≤ e.code.toNat ∧ e.code.toNat ≤ 10 := by
  cases e <;> decide

theorem ErrCode.code_ne_zero (e : ErrCode) : e.code ≠ 0 := by cases e <;> decide

theorem ErrCode.code_injective {e f : ErrCode} (h : e.code = f.code) : e = f := by
  revert h; cases e <;> cases f <;> decide

/-- A step with an access waiting handles that access. -/
theorem step_txn {s : State} {t : Txn} {rest : List Input} (h : s.port = .txn t :: rest) :
    step s = access t { s with port := rest } := by
  unfold step; rw [h]

/-- A step with hardware reset waiting resets the block. -/
theorem step_hwReset {s : State} {rest : List Input} (h : s.port = .hwReset :: rest) :
    step s = .next { s with port := rest }.hardwareReset := by
  unfold step; rw [h]

/-- A step with nothing waiting holds the state. -/
theorem step_idle {s : State} (h : s.port = []) : step s = .next s := by
  unfold step; rw [h]

/-- An access at a refused offset answers HostErr. -/
theorem access_hostErr {t : Txn} {s : State} (h : t.route = none) :
    access t s = .next (s.respond .hostErr) := by
  unfold access; rw [h]

/-- A write to CMD issues its command. -/
theorem access_cmd {t : Txn} {cw : Word} {s : State} (h : t.route = some (.regWrite .cmd cw)) :
    access t s = issue cw (s.respond .done) := by
  unfold access; rw [h]

/-- Any other access is a transaction. -/
theorem access_transact {t : Txn} {op : PortOp} {s : State} (h : t.route = some op)
    (hc : ∀ cw, op ≠ .regWrite .cmd cw) : access t s = .next (s.transact op) := by
  unfold access; rw [h]
  split
  · contradiction
  · rename_i cw heq; exact absurd (Option.some.inj heq) (hc cw)
  · rename_i op' _ heq; rw [Option.some.inj heq]

theorem issue_ok {cw : Word} {i : Instr} {s : State} (h : decode cw = .ok i) :
    issue cw s = exec i s := by
  unfold issue; rw [h]

theorem issue_illegal {cw : Word} {e : DecodeError} {s : State} (h : decode cw = .error e) :
    issue cw s = .next (s.raise .eIllegal) := by
  unfold issue; rw [h]; rfl

end Sys2Proof.Machine
end

