-- ==== Sys2Proof/Laws/Exec.lean ====
section
/-! SUPPORT. One normal form for all nineteen commands: their checks and their effect side by side, and the
theorem that `exec` is exactly that. A proof about all commands goes through `exec_cases`. -/

namespace Sys2Proof.Machine

/-- What a command does once its checks hold, before it ends. -/
def effectOf (i : Instr) (s : State) : State :=
  match i with
  | .nop => s
  | .clrerr => { s with sticky := false }
  | .sreset => s.softReset
  | .pInit => { s with prng := { s.prng.resetGen with pvalid := true } }
  | .pReset => { s with prng := s.prng.resetGen }
  | .pNext => { s with prng := s.prng.advance, res0 := s.prng.advance.px }
  | .pSeq =>
    { s.memWrite s.dst ((Prng.advances s.arg0.toNat s.prng.resetGen).1.flatMap le32) with
      prng := (Prng.advances s.arg0.toNat s.prng.resetGen).2 }
  | .pPeriod =>
    { s with
      prng := (s.prng.findPeriod s.arg0.toNat).2
      res0 := ((s.prng.findPeriod s.arg0.toNat).1.map (BitVec.ofNat 32)).getD s.arg0
      res1 := if (s.prng.findPeriod s.arg0.toNat).1.isSome then 1 else 0 }
  | .hInit => { s with hash := HashEngine.init }
  | .hUpdate => { s with hash := s.hash.absorb (s.memRead s.src s.len) }
  | .hFinal => { s with hash := s.hash.final }
  | .hDigest => { s with hash := hashOf (s.memRead s.src s.len) }
  | .hVerify =>
    { s with
      hash := hashOf (s.memRead s.src s.len)
      res0 := if s.digestMatches (hashOf (s.memRead s.src s.len)) then 1 else 0 }
  | .kDerive n =>
    { s.setKeyBytes ((hashOf (s.memRead s.src s.len)).digest.take (derivedCount n) ++
        s.keyBytes.drop (derivedCount n)) with
      hash := hashOf (s.memRead s.src s.len)
      res0 := BitVec.ofNat 32 (derivedCount n) }
  | .cSetkey _ b r =>
    { s with ks :=
      { s := keySchedule s.keyBytes b.toNat r.toNat, cr := r, cb := b, ksvalid := true } }
  | .cEcbEnc => s.memWrite s.dst (s.ks.encrypt (s.memRead s.src 8))
  | .cEcbDec => s.memWrite s.dst (s.ks.decrypt (s.memRead s.src 8))
  | .cCbcEnc =>
    { s.memWrite s.dst (cbcEncrypt s.ks s.prng.makeIV.1 (s.memRead s.src s.len)) with
      prng := s.prng.makeIV.2
      res0 := BitVec.ofNat 32 (payloadLength s.len) }
  | .cCbcDec =>
    { s.memWrite s.dst (s.cbcPlaintext.getD []) with
      res0 := BitVec.ofNat 32 (s.cbcPlaintext.getD []).length }

/-- The checks of a command, in their order; the padding check of C_CBC_DEC is the last of its five. -/
def checksOf (i : Instr) (s : State) : List (Bool × ErrCode) :=
  match i with
  | .nop | .clrerr | .sreset | .hInit => []
  | .pInit => [(s.prng.paramsOk, .ePrngParam)]
  | .pReset | .pNext | .pPeriod => [(s.prng.pvalid, .eState)]
  | .pSeq =>
    [(decide (1 ≤ s.arg0.toNat), .eCount), (s.prng.pvalid, .eState),
     (inRange s.dst (4 * s.arg0.toNat), .eAddr)]
  | .hUpdate => [(!s.hash.hfin, .eState), (inRange s.src s.len, .eAddr)]
  | .hFinal => [(!s.hash.hfin, .eState)]
  | .hDigest | .hVerify | .kDerive _ => [(inRange s.src s.len, .eAddr)]
  | .cSetkey w b _ =>
    [(decide (w.toNat = Config.cipherWordBits), .eWordsize),
     (decide (Config.bMin ≤ b.toNat ∧ b.toNat ≤ Config.bMax), .eKeylen)]
  | .cEcbEnc | .cEcbDec => [(s.ks.ksvalid, .eState), (s.blockRangesOk, .eAddr)]
  | .cCbcEnc =>
    [(s.ks.ksvalid && s.prng.pvalid, .eState),
     (inRange s.src s.len && inRange s.dst (payloadLength s.len), .eAddr)]
  | .cCbcDec =>
    [(s.ks.ksvalid, .eState), (decide (16 ≤ s.len), .eShort), (decide (s.len % 8 = 0), .eLength),
     (inRange s.src s.len && inRange s.dst (s.len - 8), .eAddr),
     (s.cbcPlaintext.isSome, .ePadding)]

/-- EVERY COMMAND IS ITS CHECKS, THEN ITS EFFECT. -/
theorem exec_eq_command (i : Instr) (s : State) :
    exec i s = command (checksOf i s) (effectOf i) s := by
  cases i <;> try rfl
  case pPeriod =>
    simp only [exec, execPPeriod, checksOf, command, effectOf]
    split
    · rfl
    · cases h : s.prng.findPeriod s.arg0.toNat with
      | mk a b => cases a <;> rfl
  case cCbcDec =>
    simp only [exec, execCCbcDec, checksOf, command, effectOf, firstFailure]
    cases hk : s.ks.ksvalid <;> simp only [Bool.false_eq_true, if_false, if_true]
    cases h1 : decide (16 ≤ s.len) <;> simp only [Bool.false_eq_true, if_false, if_true]
    cases h2 : decide (s.len % 8 = 0) <;> simp only [Bool.false_eq_true, if_false, if_true]
    cases h3 : (inRange s.src s.len && inRange s.dst (s.len - 8)) <;>
      simp only [Bool.false_eq_true, if_false, if_true]
    cases h : s.cbcPlaintext <;> rfl

/-- Everything `exec` can answer: the error of the first failing check, or the effect. -/
theorem exec_cases (i : Instr) (s : State) :
    (∃ e, firstFailure (checksOf i s) = some e ∧ exec i s = .next (s.raise e)) ∨
    (firstFailure (checksOf i s) = none ∧ exec i s = .next (effectOf i s).finish) := by
  rw [exec_eq_command]; exact command_cases _ _ _

/-- A command whose checks hold has its effect. -/
theorem exec_of_checks {i : Instr} {s : State} (h : ∀ c ∈ checksOf i s, c.1 = true) :
    exec i s = .next (effectOf i s).finish := by
  rw [exec_eq_command, command, (firstFailure_eq_none_iff _).2 h]; rfl

theorem inRange_iff (a n : Nat) : inRange a n = true ↔ a + n ≤ 65536 := by
  rw [inRange, show Config.bufSize = 65536 from rfl]; exact decide_eq_true_iff

theorem inRange_eq_false_iff (a n : Nat) : inRange a n = false ↔ 65536 < a + n := by
  rw [← Bool.not_eq_true, inRange_iff]; omega

/-- The two forms of P_INIT's check. -/
theorem Prng.paramsOk_iff (g : Prng) :
    g.paramsOk = true ↔
      0 < g.pm.toNat ∧ g.pa.toNat < g.pm.toNat ∧ g.pc.toNat < g.pm.toNat ∧
        g.px0.toNat < g.pm.toNat := by
  have h : g.pm ≠ 0 ↔ 0 < g.pm.toNat := by
    rw [Nat.pos_iff_ne_zero]
    exact not_congr ⟨fun e => by rw [e]; rfl, fun e => BitVec.eq_of_toNat_eq e⟩
  simp only [Prng.paramsOk, decide_eq_true_eq, h, BitVec.lt_def]

/-- No check of a command fails exactly when the conditions of its rule hold. -/
theorem firstFailure_checksOf_eq_none_iff (i : Instr) (s : State) :
    firstFailure (checksOf i s) = none ↔ checksHold i s := by
  rw [firstFailure_eq_none_iff]
  cases i <;>
    simp only [checksOf, checksHold, List.forall_mem_cons, decide_eq_true_eq, Bool.and_eq_true,
      Bool.not_eq_true'] <;>
    simp only [List.not_mem_nil, false_imp_iff, implies_true, and_true, Prng.paramsOk_iff,
      inRange_iff, State.blockRangesOk, State.src, State.len, State.dst, payloadLength,
      State.cbcPlaintext, Option.isSome_iff_ne_none, Config.cipherWordBits, Config.bMin, Config.bMax,
      Config.cblock, and_assoc, Bool.and_eq_true, ne_eq]

end Sys2Proof.Machine
end

