-- ==== Sys2Proof/Laws/Hash.lean ====
section
/-! SUPPORT. The laws of the Hash Engine: what absorbing a byte does, how absorbing bytes one by one amounts
to compressing blocks, and the length of the padding. -/

namespace Sys2Proof.Machine

/-- In a buffer that holds exactly the bytes before `i`, writing byte `i` appends it. -/
theorem writeBlockByte_of_length {blk : List Byte} {i : Nat} (h : blk.length = i) (b : Byte) :
    writeBlockByte blk i b = blk ++ [b] := by
  subst h; simp [writeBlockByte]

@[simp] theorem length_writeBlockByte (blk : List Byte) (i : Nat) (b : Byte) :
    (writeBlockByte blk i b).length = i + 1 := by
  simp [writeBlockByte]; omega

theorem hlen_succ_mod (n : DWord) : (n + 1).toNat % 64 = (n.toNat % 64 + 1) % 64 := by
  rw [BitVec.toNat_add]; simp

/-- Absorbing a byte that does not fill the block: it waits in HBLK (41_hash.md R162). -/
theorem HashEngine.absorbByte_waits {h : HashEngine} (b : Byte) (hf : h.hlen.toNat % 64 ≠ 63) :
    h.absorbByte b = h.buffer b := by
  have hm : ¬ (h.buffer b).hlen.toNat % Config.hblock = 0 := by
    rw [HashEngine.buffer_hlen, show Config.hblock = 64 from rfl, hlen_succ_mod]; omega
  rw [HashEngine.absorbByte, if_neg hm]

/-- Absorbing the byte that fills the block: the block is compressed and no byte waits (41_hash.md R162). -/
theorem HashEngine.absorbByte_fills {h : HashEngine} (b : Byte) (hf : h.hlen.toNat % 64 = 63) :
    h.absorbByte b = (h.buffer b).flush := by
  have hm : (h.buffer b).hlen.toNat % Config.hblock = 0 := by
    rw [HashEngine.buffer_hlen, show Config.hblock = 64 from rfl, hlen_succ_mod]; omega
  rw [HashEngine.absorbByte, if_pos hm]

@[simp] theorem HashEngine.absorbByte_hlen (h : HashEngine) (b : Byte) :
    (h.absorbByte b).hlen = h.hlen + 1 := by
  rw [HashEngine.absorbByte]; split <;> simp

@[simp] theorem HashEngine.absorbByte_hfin (h : HashEngine) (b : Byte) :
    (h.absorbByte b).hfin = h.hfin := by
  rw [HashEngine.absorbByte]; split <;> simp

/-- After a byte as many bytes wait as HLEN says, whatever waited before (10_state.md R41). -/
theorem HashEngine.absorbByte_fill (h : HashEngine) (b : Byte) :
    (h.absorbByte b).hblk.length = (h.absorbByte b).hlen.toNat % 64 := by
  rw [HashEngine.absorbByte_hlen, hlen_succ_mod]
  by_cases hf : h.hlen.toNat % 64 = 63
  · rw [HashEngine.absorbByte_fills b hf, HashEngine.flush_hblk, hf, List.length_nil]
  · rw [HashEngine.absorbByte_waits b hf, HashEngine.buffer_hblk, length_writeBlockByte,
      show Config.hblock = 64 from rfl]
    omega

@[simp] theorem HashEngine.absorb_nil (h : HashEngine) : h.absorb [] = h := rfl

@[simp] theorem HashEngine.absorb_cons (h : HashEngine) (b : Byte) (s : List Byte) :
    h.absorb (b :: s) = (h.absorbByte b).absorb s := rfl

/-- Chunk boundaries do not matter (41_hash.md R162). -/
theorem HashEngine.absorb_append (h : HashEngine) (s t : List Byte) :
    h.absorb (s ++ t) = (h.absorb s).absorb t := List.foldl_append

@[simp] theorem HashEngine.absorb_hfin (h : HashEngine) (s : List Byte) :
    (h.absorb s).hfin = h.hfin := by
  induction s generalizing h with
  | nil => rfl
  | cons b s ih => rw [HashEngine.absorb_cons, ih, HashEngine.absorbByte_hfin]

theorem HashEngine.absorb_hlen (h : HashEngine) (s : List Byte) :
    (h.absorb s).hlen = h.hlen + BitVec.ofNat 64 s.length := by
  induction s generalizing h with
  | nil => simp
  | cons b s ih =>
    rw [HashEngine.absorb_cons, ih, HashEngine.absorbByte_hlen, BitVec.add_assoc]
    congr 1
    apply BitVec.eq_of_toNat_eq
    simp [BitVec.toNat_add]; omega

/-- Absorbing keeps the fill of HBLK at `HLEN mod 64` (10_state.md R41). -/
theorem HashEngine.absorb_fill {h : HashEngine} (hf : h.hblk.length = h.hlen.toNat % 64)
    (s : List Byte) : (h.absorb s).hblk.length = (h.absorb s).hlen.toNat % 64 := by
  induction s generalizing h with
  | nil => exact hf
  | cons b s ih => exact ih (HashEngine.absorbByte_fill h b)

/-- The chaining registers of two engines agree. -/
def HashEngine.sameWords (h k : HashEngine) : Prop :=
  h.ha = k.ha ∧ h.hb = k.hb ∧ h.hc = k.hc ∧ h.hd = k.hd

/-- A compression depends on the chaining registers only. -/
theorem HashEngine.sameWords_compress {h k : HashEngine} (e : h.sameWords k) (blk : List Byte) :
    (h.compress blk).sameWords (k.compress blk) := by
  obtain ⟨e1, e2, e3, e4⟩ := e
  unfold HashEngine.compress HashEngine.sameWords
  rw [e1, e2, e3, e4]
  simp only [HashEngine.addBack_ha, HashEngine.addBack_hb, HashEngine.addBack_hc,
    HashEngine.addBack_hd, e1, e2, e3, e4, and_self]

theorem HashEngine.sameWords_foldl {h k : HashEngine} (e : h.sameWords k)
    (blks : List (List Byte)) :
    (blks.foldl HashEngine.compress h).sameWords (blks.foldl HashEngine.compress k) := by
  induction blks generalizing h k with
  | nil => exact e
  | cons blk blks ih => exact ih (HashEngine.sameWords_compress e blk)

/-- Absorbing bytes while the block does not fill only buffers them. -/
theorem HashEngine.absorb_waits {h : HashEngine} (s : List Byte)
    (hf : h.hblk.length = h.hlen.toNat % 64) (hs : h.hblk.length + s.length < 64) :
    h.absorb s = { h with hblk := h.hblk ++ s, hlen := h.hlen + BitVec.ofNat 64 s.length } := by
  induction s generalizing h with
  | nil => simp
  | cons b s ih =>
    simp only [List.length_cons] at hs
    have hw : h.absorbByte b = { h with hblk := h.hblk ++ [b], hlen := h.hlen + 1 } := by
      have hf' : h.hblk.length = h.hlen.toNat % Config.hblock := hf
      rw [HashEngine.absorbByte_waits b (by omega), HashEngine.buffer, writeBlockByte_of_length hf']
    have hl := HashEngine.absorb_hlen h (b :: s)
    rw [HashEngine.absorb_cons] at hl ⊢
    rw [hw] at hl ⊢
    rw [ih] at hl ⊢
    · simp only [HashEngine.mk.injEq, true_and, and_true, List.append_assoc,
        List.singleton_append]
      exact hl
    · simp only [List.length_append, List.length_singleton]; rw [hlen_succ_mod]; omega
    · simp only [List.length_append, List.length_singleton]; omega
    · simp only [List.length_append, List.length_singleton]; rw [hlen_succ_mod]; omega
    · simp only [List.length_append, List.length_singleton]; omega

/-- Flushing a full block compresses it. -/
theorem HashEngine.sameWords_flush {h k : HashEngine} (e : h.sameWords k) {blk : List Byte}
    (hb : h.hblk = blk) : h.flush.sameWords (k.compress blk) := by
  unfold HashEngine.sameWords
  rw [HashEngine.flush_ha, HashEngine.flush_hb, HashEngine.flush_hc, HashEngine.flush_hd, hb]
  exact HashEngine.sameWords_compress e blk

/-- Absorbing the bytes that just fill the block compresses it, and then no byte waits. -/
theorem HashEngine.absorb_fills {h : HashEngine} (s : List Byte)
    (hf : h.hblk.length = h.hlen.toNat % 64) (hs : h.hblk.length + s.length = 64) :
    (h.absorb s).sameWords (h.compress (h.hblk ++ s)) ∧ (h.absorb s).hblk = [] := by
  have hne : s ≠ [] := by rintro rfl; simp at hs; omega
  obtain ⟨s', b, rfl⟩ : ∃ s' b, s = s' ++ [b] := ⟨_, _, (List.dropLast_append_getLast hne).symm⟩
  simp only [List.length_append, List.length_singleton] at hs
  have hm : (h.hlen + BitVec.ofNat 64 s'.length).toNat % 64 = 63 := by
    rw [BitVec.toNat_add, BitVec.toNat_ofNat]; omega
  have hb : (h.hblk ++ s').length =
      (h.hlen + BitVec.ofNat 64 s'.length).toNat % Config.hblock := by
    rw [show Config.hblock = 64 from rfl, hm, List.length_append]; omega
  rw [HashEngine.absorb_append, HashEngine.absorb_waits s' hf (by omega),
    HashEngine.absorb_cons, HashEngine.absorb_nil, HashEngine.absorbByte_fills b hm]
  refine ⟨HashEngine.sameWords_flush ⟨rfl, rfl, rfl, rfl⟩ ?_, HashEngine.flush_hblk _⟩
  rw [HashEngine.buffer_hblk, writeBlockByte_of_length hb, List.append_assoc]

/-- The groups of a string whose first 64 bytes are known. -/
theorem groupsOf64_append {s t : List Byte} (hs : s.length = 64) :
    groupsOf64 ((s ++ t).length / 64) (s ++ t) = s :: groupsOf64 (t.length / 64) t := by
  have h1 : (s ++ t).length / 64 = t.length / 64 + 1 := by
    simp only [List.length_append, hs]; omega
  rw [h1, groupsOf64, ← hs, List.take_left, List.drop_left]

/-- THE BLOCK FORM (41_hash.md R165): absorbing a string that ends a block compresses, one after another, the
64-byte groups of the bytes that waited and the string, and then no byte waits. -/
theorem HashEngine.absorb_blocks (n : Nat) {h : HashEngine} {s : List Byte}
    (hf : h.hblk.length = h.hlen.toNat % 64) (hs : h.hblk.length + s.length = 64 * n) :
    (h.absorb s).sameWords
      ((groupsOf64 ((h.hblk ++ s).length / 64) (h.hblk ++ s)).foldl HashEngine.compress h) ∧
    (h.absorb s).hblk = [] := by
  induction n generalizing h s with
  | zero =>
    have h1 : h.hblk = [] := List.eq_nil_of_length_eq_zero (by omega)
    have h2 : s = [] := List.eq_nil_of_length_eq_zero (by omega)
    subst h2
    rw [h1]
    exact ⟨⟨rfl, rfl, rfl, rfl⟩, h1⟩
  | succ n ih =>
    have hlt : h.hblk.length < 64 := by omega
    obtain ⟨u, v, rfl, hu⟩ : ∃ u v, s = u ++ v ∧ h.hblk.length + u.length = 64 :=
      ⟨s.take (64 - h.hblk.length), s.drop (64 - h.hblk.length), by simp, by simp; omega⟩
    simp only [List.length_append] at hs
    rw [HashEngine.absorb_append]
    obtain ⟨hsame, hb⟩ := HashEngine.absorb_fills u hf hu
    obtain ⟨ih1, ih2⟩ := ih (h := h.absorb u) (s := v) (HashEngine.absorb_fill hf u)
      (by rw [hb, List.length_nil]; omega)
    refine ⟨?_, ih2⟩
    rw [hb, List.nil_append] at ih1
    have hu' : (h.hblk ++ u).length = 64 := by rw [List.length_append]; exact hu
    rw [← List.append_assoc, groupsOf64_append hu', List.foldl_cons]
    have hg := HashEngine.sameWords_foldl hsame (groupsOf64 (v.length / 64) v)
    exact ⟨ih1.1.trans hg.1, ih1.2.1.trans hg.2.1, ih1.2.2.1.trans hg.2.2.1,
      ih1.2.2.2.trans hg.2.2.2⟩

/-- The first `n` groups are the groups of the first `64·n` bytes. -/
theorem groupsOf64_append_right (n : Nat) {u v : List Byte} (h : u.length = 64 * n) :
    groupsOf64 n (u ++ v) = groupsOf64 n u := by
  induction n generalizing u with
  | zero => rfl
  | succ n ih =>
    rw [groupsOf64, groupsOf64, List.take_append_of_le_length (by omega),
      List.drop_append_of_le_length (by omega), ih (by simp; omega)]

/-- The length of the padding (41_hash.md R163). -/
theorem length_padBytes (l : Nat) :
    (padBytes l).length = 1 + (55 + (64 - l % 64)) % 64 + 8 := by
  simp [padBytes]; omega

/-- A message and its padding fill whole blocks (41_hash.md R163). -/
theorem padBytes_fills (l : Nat) : (l + (padBytes l).length) % 64 = 0 := by
  rw [length_padBytes]; omega

/-- Before the padding of a message of `HLEN` bytes, the bytes that wait and the padding fill whole blocks. -/
theorem fill_add_padBytes {h : HashEngine} (hf : h.hblk.length = h.hlen.toNat % 64) :
    ∃ n, h.hblk.length + (padBytes h.hlen.toNat).length = 64 * n := by
  refine ⟨(h.hblk.length + (padBytes h.hlen.toNat).length) / 64, ?_⟩
  rw [length_padBytes, hf]; omega

end Sys2Proof.Machine
end

