-- ==== Sys2Proof/Laws/HostPort.lean ====
section
/-! SUPPORT. The laws of the host port: where each access goes. -/

namespace Sys2Proof.Machine

@[simp] theorem regAt_offset (r : Reg) : regAt r.offset = some r := by cases r <;> decide

theorem Reg.offset_lt (r : Reg) : r.offset < Config.bufBase := by cases r <;> decide

/-- The register decoder knows the thirty offsets of the table, and no other (10_state.md R21). -/
theorem regAt_isSome_iff (off : Nat) : (regAt off).isSome = true ↔ isRegOffset off := by
  have h : ∀ off < 0x88, (regAt off).isSome = true ↔ isRegOffset off := by
    unfold isRegOffset; decide +kernel
  by_cases ho : off < 0x88
  · exact h off ho
  · unfold isRegOffset
    refine ⟨fun h => ?_, fun h => by omega⟩
    obtain ⟨r, hr⟩ := Option.isSome_iff_exists.1 h
    have hoff := List.find?_some hr
    simp at hoff
    exfalso; revert hoff; cases r <;> simp [Reg.offset] <;> omega

theorem route_read32_reg (r : Reg) : Txn.route (.read32 r.offset) = some (.regRead r) := by
  rw [Txn.route, if_pos r.offset_lt, regAt_offset]; rfl

theorem route_write32_reg (r : Reg) (v : Word) :
    Txn.route (.write32 r.offset v) = some (.regWrite r v) := by
  rw [Txn.route, if_pos r.offset_lt, regAt_offset]; rfl

theorem route_cmd (cw : Word) : Txn.route (.write32 0x000 cw) = some (.regWrite .cmd cw) := rfl

theorem bufIndex_add {k n : Nat} (h : k + n ≤ 65536) : bufIndex (0x10000 + k) n = some k := by
  rw [bufIndex, show Config.bufBase = 0x10000 from rfl, show Config.bufSize = 65536 from rfl,
    if_pos ⟨by omega, by omega⟩, Nat.add_sub_cancel_left]

theorem bufIndex32_add {k : Nat} (h : k + 4 ≤ 65536) (h4 : k % 4 = 0) :
    bufIndex32 (0x10000 + k) = some k := by
  rw [bufIndex32, bufIndex_add h]; simp [Option.filter, h4]

/-- What the BUF decoder accepts fits in BUF. -/
theorem bufIndex_fits {off n k : Nat} (h : bufIndex off n = some k) : k + n ≤ Config.bufSize := by
  unfold bufIndex at h
  split at h
  · rename_i hh; rw [← Option.some.inj h]; exact hh.2
  · contradiction

theorem bufBase_le_add (k : Nat) : ¬ 0x10000 + k < Config.bufBase := by
  rw [show Config.bufBase = 0x10000 from rfl]; omega

theorem route_write8 {k : Nat} (h : k < 65536) (v : Byte) :
    Txn.route (.write8 (0x10000 + k) v) = some (.bufWrite8 k v) := by
  rw [Txn.route, bufIndex_add h]; rfl

theorem route_read8 {k : Nat} (h : k < 65536) :
    Txn.route (.read8 (0x10000 + k)) = some (.bufRead8 k) := by
  rw [Txn.route, bufIndex_add h]; rfl

theorem route_write32_buf {k : Nat} (h : k + 4 ≤ 65536) (h4 : k % 4 = 0) (v : Word) :
    Txn.route (.write32 (0x10000 + k) v) = some (.bufWrite32 k v) := by
  rw [Txn.route, if_neg (bufBase_le_add k), bufIndex32_add h h4]; rfl

theorem route_read32_buf {k : Nat} (h : k + 4 ≤ 65536) (h4 : k % 4 = 0) :
    Txn.route (.read32 (0x10000 + k)) = some (.bufRead32 k) := by
  rw [Txn.route, if_neg (bufBase_le_add k), bufIndex32_add h h4]; rfl

/-- Byte `j` of a word. -/
theorem getElem_le32 (v : Word) (j : Nat) (h : j < (le32 v).length) :
    (le32 v)[j] = v.extractLsb' (8 * j) 8 := by
  simp only [length_le32] at h
  have hj : j = 0 ∨ j = 1 ∨ j = 2 ∨ j = 3 := by omega
  rcases hj with rfl | rfl | rfl | rfl <;> rfl

end Sys2Proof.Machine
end

