-- ==== Sys2Proof/Laws/Memory.lean ====
section
/-! SUPPORT. The laws of BUF: what a read gives after a write, and that every write keeps the canonical form. -/

namespace Sys2Proof.Machine

theorem Memory.find_put (m : Memory) (a b : Nat) (v : Byte) :
    (m.put a v).find b = if b = a then some v else m.find b := by
  induction m with
  | nil => simp [Memory.put, Memory.find]
  | cons c m ih =>
    obtain ⟨x, w⟩ := c
    unfold Memory.put
    split
    · simp [Memory.find]
    · split
      · subst a; by_cases h : b = x <;> simp [Memory.find, h]
      · rename_i _ hax
        by_cases h : b = x
        · subst h; simp [Memory.find, Ne.symm hax]
        · simp [Memory.find, h, ih]

/-- An entry of the memory after a write is the byte written or an entry of the memory before. -/
theorem Memory.mem_put {m : Memory} {a : Nat} {v : Byte} {c : Host.Cell} (h : c ∈ m.put a v) :
    c = (a, v) ∨ c ∈ m := by
  induction m with
  | nil => simpa [Memory.put] using h
  | cons d m ih =>
    obtain ⟨x, w⟩ := d
    unfold Memory.put at h
    split at h
    · simpa using h
    · split at h
      · simp only [List.mem_cons] at h ⊢; tauto
      · simp only [List.mem_cons] at h ⊢
        rcases h with h | h
        · exact .inr (.inl h)
        · exact (ih h).imp id .inr

theorem Memory.pairwise_put {m : Memory} (a : Nat) (v : Byte)
    (h : m.Pairwise (fun c d => c.1 < d.1)) : (m.put a v).Pairwise (fun c d => c.1 < d.1) := by
  induction m with
  | nil => simp [Memory.put]
  | cons d m ih =>
    obtain ⟨x, w⟩ := d
    rw [List.pairwise_cons] at h
    unfold Memory.put
    split
    · rename_i hax
      refine List.pairwise_cons.2 ⟨fun c hc => ?_, List.pairwise_cons.2 h⟩
      rcases List.mem_cons.1 hc with rfl | hc
      · exact hax
      · exact Nat.lt_trans hax (h.1 c hc)
    · split
      · subst a; exact List.pairwise_cons.2 ⟨h.1, h.2⟩
      · refine List.pairwise_cons.2 ⟨fun c hc => ?_, ih h.2⟩
        rcases Memory.mem_put hc with rfl | hc
        · simp only; omega
        · exact h.1 c hc

/-- A write to a BUF address keeps the canonical form. -/
theorem Memory.wf_put {m : Memory} {a : Nat} (v : Byte) (h : m.wf) (ha : a < Config.bufSize) :
    (m.put a v).wf :=
  ⟨Memory.pairwise_put a v h.1, fun c hc =>
    (Memory.mem_put hc).elim (fun e => e ▸ ha) (h.2 c)⟩

/-- A write of a string in range keeps the canonical form. -/
theorem Memory.wf_putAll {m : Memory} {a : Nat} {bs : List Byte} (h : m.wf)
    (hr : a + bs.length ≤ Config.bufSize) : (m.putAll a bs).wf := by
  induction bs generalizing m a with
  | nil => exact h
  | cons v bs ih =>
    simp only [List.length_cons] at hr
    exact ih (Memory.wf_put v h (by omega)) (by omega)

/-- What a byte is after a string is written: the string's byte inside its range, the old one outside. -/
theorem Memory.find_putAll (m : Memory) (a b : Nat) (bs : List Byte) :
    (m.putAll a bs).find b =
      if a ≤ b ∧ b < a + bs.length then bs[b - a]? else m.find b := by
  induction bs generalizing m a with
  | nil => simp [Memory.putAll]
  | cons v bs ih =>
    rw [Memory.putAll, ih, Memory.find_put]
    simp only [List.length_cons]
    by_cases h1 : a + 1 ≤ b ∧ b < a + 1 + bs.length
    · rw [if_pos h1, if_pos (by omega)]
      obtain ⟨k, rfl⟩ : ∃ k, b = a + 1 + k := ⟨b - (a + 1), by omega⟩
      simp [show a + 1 + k - a = k + 1 by omega]
    · rw [if_neg h1]
      by_cases h2 : b = a
      · subst h2; simp
      · rw [if_neg h2, if_neg (by omega)]

/-- Reset's memory has the canonical form. -/
theorem State.reset_buf_wf : State.reset.buf.wf := by decide

theorem State.readByte_memWrite (s : State) (a b : Nat) (bs : List Byte) :
    (s.memWrite a bs).readByte b =
      if h : a ≤ b ∧ b < a + bs.length then bs[b - a]'(by omega) else s.readByte b := by
  unfold State.readByte State.memWrite
  simp only [Memory.find_putAll]
  split
  · rename_i h; rw [List.getElem?_eq_getElem (by omega)]; rfl
  · rfl

/-- Outside the bytes written, a write leaves every byte of BUF. -/
theorem State.readByte_memWrite_outside {s : State} {a b : Nat} {bs : List Byte}
    (h : b < a ∨ a + bs.length ≤ b) : (s.memWrite a bs).readByte b = s.readByte b := by
  rw [State.readByte_memWrite, dif_neg (by omega)]

theorem State.readByte_writeByte (s : State) (a b : Nat) (v : Byte) :
    (s.writeByte a v).readByte b = if b = a then v else s.readByte b := by
  unfold State.readByte State.writeByte
  simp only [Memory.find_put]
  split <;> rfl

@[simp] theorem State.length_memRead (s : State) (a n : Nat) : (s.memRead a n).length = n := by
  simp [State.memRead]

theorem State.getElem_memRead (s : State) (a n k : Nat) (h : k < (s.memRead a n).length) :
    (s.memRead a n)[k] = s.readByte (a + k) := by
  simp [State.memRead]

/-- A string read from where it was just written is that string (20_memory.md R70). -/
theorem State.memRead_memWrite (s : State) (a : Nat) (bs : List Byte) :
    (s.memWrite a bs).memRead a bs.length = bs := by
  apply List.ext_getElem (by simp)
  intro k h1 h2
  rw [State.getElem_memRead, State.readByte_memWrite, dif_pos (by omega)]
  simp

/-- Two states whose bytes agree on a range read the same string there. -/
theorem State.memRead_congr {s t : State} {a n : Nat}
    (h : ∀ k < n, s.readByte (a + k) = t.readByte (a + k)) : s.memRead a n = t.memRead a n :=
  List.map_congr_left fun k hk => h k (List.mem_range.1 hk)

/-- What a byte reads as depends on BUF and the free values only. -/
theorem State.readByte_congr {s t : State} (h1 : s.buf = t.buf) (h2 : s.resets = t.resets) (a : Nat) :
    s.readByte a = t.readByte a := by
  unfold State.readByte; rw [h1, h2]

/-- What a state whose BUF is another's with `bs` written at `a` reads there. -/
theorem State.memRead_of_buf {s t : State} {a n : Nat} {bs : List Byte}
    (h1 : t.buf = s.buf.putAll a bs) (h2 : t.resets = s.resets) (hn : n = bs.length) :
    t.memRead a n = bs := by
  subst hn
  exact (State.memRead_congr (t := s.memWrite a bs) fun k _ =>
      State.readByte_congr (t := s.memWrite a bs) h1 h2 _).trans
    (State.memRead_memWrite s a bs)

/-- What such a state reads elsewhere. -/
theorem State.readByte_of_buf {s t : State} {a b : Nat} {bs : List Byte}
    (h1 : t.buf = s.buf.putAll a bs) (h2 : t.resets = s.resets) (h : b < a ∨ a + bs.length ≤ b) :
    t.readByte b = s.readByte b :=
  (State.readByte_congr (t := s.memWrite a bs) h1 h2 b).trans (State.readByte_memWrite_outside h)

/-- The prefix of a string read is the shorter string read. -/
theorem State.memRead_add (s : State) (a m n : Nat) :
    s.memRead a (m + n) = s.memRead a m ++ s.memRead (a + m) n := by
  apply List.ext_getElem (by simp)
  intro k h1 h2
  rw [List.getElem_append]
  split
  · simp [State.getElem_memRead]
  · rename_i h
    simp only [State.length_memRead] at h ⊢
    rw [State.getElem_memRead, State.getElem_memRead]
    congr 1; omega

end Sys2Proof.Machine
end

