-- ==== Sys2Proof/Laws/PerInstr.lean ====
section
/-! SUPPORT. The statements made command by command. -/

namespace Sys2Proof.Laws

/-- The word of the command is one that the command's own row of the opcode map selects (30_encoding.md R104,
R115). -/
def EncodesOwnRow.Statement (i : Instr) : Prop :=
  ∃ row ∈ opcodeRows, row.mnemonic = i.mnemonic ∧ row.selects (encode i) = true

theorem EncodesOwnRow.nop : EncodesOwnRow.Statement .nop :=
  ⟨⟨"NOP", 0xFFFFFFFF, 0x00000000⟩, by decide, rfl, by decide⟩
theorem EncodesOwnRow.clrerr : EncodesOwnRow.Statement .clrerr :=
  ⟨⟨"CLRERR", 0xFFFFFFFF, 0x00000001⟩, by decide, rfl, by decide⟩
theorem EncodesOwnRow.sreset : EncodesOwnRow.Statement .sreset :=
  ⟨⟨"SRESET", 0xFFFFFFFF, 0x00000002⟩, by decide, rfl, by decide⟩
theorem EncodesOwnRow.pInit : EncodesOwnRow.Statement .pInit :=
  ⟨⟨"P_INIT", 0xFFFFFFFF, 0x00000010⟩, by decide, rfl, by decide⟩
theorem EncodesOwnRow.pReset : EncodesOwnRow.Statement .pReset :=
  ⟨⟨"P_RESET", 0xFFFFFFFF, 0x00000011⟩, by decide, rfl, by decide⟩
theorem EncodesOwnRow.pNext : EncodesOwnRow.Statement .pNext :=
  ⟨⟨"P_NEXT", 0xFFFFFFFF, 0x00000012⟩, by decide, rfl, by decide⟩
theorem EncodesOwnRow.pSeq : EncodesOwnRow.Statement .pSeq :=
  ⟨⟨"P_SEQ", 0xFFFFFFFF, 0x00000013⟩, by decide, rfl, by decide⟩
theorem EncodesOwnRow.pPeriod : EncodesOwnRow.Statement .pPeriod :=
  ⟨⟨"P_PERIOD", 0xFFFFFFFF, 0x00000014⟩, by decide, rfl, by decide⟩
theorem EncodesOwnRow.hInit : EncodesOwnRow.Statement .hInit :=
  ⟨⟨"H_INIT", 0xFFFFFFFF, 0x00000020⟩, by decide, rfl, by decide⟩
theorem EncodesOwnRow.hUpdate : EncodesOwnRow.Statement .hUpdate :=
  ⟨⟨"H_UPDATE", 0xFFFFFFFF, 0x00000021⟩, by decide, rfl, by decide⟩
theorem EncodesOwnRow.hFinal : EncodesOwnRow.Statement .hFinal :=
  ⟨⟨"H_FINAL", 0xFFFFFFFF, 0x00000022⟩, by decide, rfl, by decide⟩
theorem EncodesOwnRow.hDigest : EncodesOwnRow.Statement .hDigest :=
  ⟨⟨"H_DIGEST", 0xFFFFFFFF, 0x00000023⟩, by decide, rfl, by decide⟩
theorem EncodesOwnRow.hVerify : EncodesOwnRow.Statement .hVerify :=
  ⟨⟨"H_VERIFY", 0xFFFFFFFF, 0x00000024⟩, by decide, rfl, by decide⟩
theorem EncodesOwnRow.cEcbEnc : EncodesOwnRow.Statement .cEcbEnc :=
  ⟨⟨"C_ECB_ENC", 0xFFFFFFFF, 0x00000041⟩, by decide, rfl, by decide⟩
theorem EncodesOwnRow.cEcbDec : EncodesOwnRow.Statement .cEcbDec :=
  ⟨⟨"C_ECB_DEC", 0xFFFFFFFF, 0x00000042⟩, by decide, rfl, by decide⟩
theorem EncodesOwnRow.cCbcEnc : EncodesOwnRow.Statement .cCbcEnc :=
  ⟨⟨"C_CBC_ENC", 0xFFFFFFFF, 0x00000048⟩, by decide, rfl, by decide⟩
theorem EncodesOwnRow.cCbcDec : EncodesOwnRow.Statement .cCbcDec :=
  ⟨⟨"C_CBC_DEC", 0xFFFFFFFF, 0x00000049⟩, by decide, rfl, by decide⟩

/-- A word whose low byte is 0x40 selects the row of C_SETKEY, whatever stands above. -/
theorem selects_cSetkey {n : Nat} (h : n % 256 = 0x40) :
    OpcodeRow.selects ⟨"C_SETKEY", 0x000000FF, 0x00000040⟩ (BitVec.ofNat 32 n) = true := by
  rw [OpcodeRow.selects, beq_iff_eq]
  apply BitVec.eq_of_toNat_eq
  have hm : (BitVec.ofNat 32 n).toNat &&& 0xFF = (BitVec.ofNat 32 n).toNat % 2 ^ 8 :=
    Nat.and_two_pow_sub_one_eq_mod _ 8
  rw [BitVec.toNat_and, show (0x000000FF : Word).toNat = 0xFF from rfl, hm, BitVec.toNat_ofNat]
  show n % 2 ^ 32 % 2 ^ 8 = 0x40
  omega

theorem EncodesOwnRow.kDerive (n : Byte) : EncodesOwnRow.Statement (.kDerive n) := by
  refine ⟨⟨"K_DERIVE", 0xFF00FFFF, 0x00000030⟩, by decide, rfl, ?_⟩
  revert n; decide

theorem EncodesOwnRow.cSetkey (w b r : Byte) : EncodesOwnRow.Statement (.cSetkey w b r) := by
  refine ⟨⟨"C_SETKEY", 0x000000FF, 0x00000040⟩, by decide, rfl, ?_⟩
  apply selects_cSetkey
  simp only [Instr.opcode, Instr.immediates, show (0x40 : Byte).toNat = 0x40 from rfl]
  omega

end Sys2Proof.Laws
end

