-- ==== Sys2Proof/Laws/Prng.lean ====
section
/-! SUPPORT. The laws of the PRNG Engine: the recurrence stays in range, what `n` advances leave, and what the
period search answers. -/

namespace Sys2Proof.Machine

theorem lcgStep_toNat {m a c x : Word} (hm : 0 < m.toNat) :
    (lcgStep m a c x).toNat = (a.toNat * x.toNat + c.toNat) % m.toNat := by
  have h := Nat.mod_lt (a.toNat * x.toNat + c.toNat) hm
  have := m.isLt
  rw [lcgStep, BitVec.toNat_ofNat, Nat.mod_eq_of_lt (by omega)]

/-- A generated value lies in `[0, m)` (40_prng.md R140). -/
theorem lcgStep_lt {m a c x : Word} (hm : 0 < m.toNat) : lcgStep m a c x < m := by
  rw [BitVec.lt_def, lcgStep_toNat hm]
  exact Nat.mod_lt _ hm

/-- Everything `n` advances leave: the parameters, the values returned in HIST, and PHCNT. -/
theorem Prng.advances_spec (n : Nat) (g : Prng) :
    (Prng.advances n g).1.length = n ∧
    (Prng.advances n g).2 = { g with
      px := ((Prng.advances n g).1.getLast?).getD g.px
      phcnt := g.phcnt + BitVec.ofNat 32 n
      hist := g.hist ++ (Prng.advances n g).1 } := by
  induction n generalizing g with
  | zero => simp [Prng.advances]
  | succ n ih =>
    obtain ⟨h1, h2⟩ := ih g.advance
    refine ⟨by simp [Prng.advances, h1], ?_⟩
    rw [Prng.advances, h2]
    simp only [Prng.mk.injEq, Prng.advance_pm, Prng.advance_pa, Prng.advance_pc, Prng.advance_px0,
      Prng.advance_px, Prng.advance_phcnt, Prng.advance_pvalid, Prng.advance_hist, true_and,
      List.append_assoc, List.singleton_append, and_true]
    refine ⟨?_, ?_⟩
    · rw [List.getLast?_cons]; rfl
    · rw [BitVec.add_assoc]; congr 1
      apply BitVec.eq_of_toNat_eq
      simp [BitVec.toNat_add]; omega

/-- The values of a generator started at `x_j` of its orbit are `x_(j+1)`, `x_(j+2)`, ... (40_prng.md R139). -/
theorem Prng.advances_eq_orbit {g : Prng} (hm : 0 < g.pm.toNat) (n j : Nat) (h : Prng)
    (hpm : h.pm = g.pm) (hpa : h.pa = g.pa) (hpc : h.pc = g.pc) (hpx : h.px.toNat = g.orbit j) :
    (Prng.advances n h).1 = (List.range n).map (fun k => BitVec.ofNat 32 (g.orbit (j + k + 1))) := by
  induction n generalizing j h with
  | zero => rfl
  | succ n ih =>
    have hx : h.advance.px.toNat = g.orbit (j + 1) := by
      rw [Prng.advance_px, hpm, hpa, hpc, lcgStep_toNat hm, hpx]; rfl
    have hr := ih (j + 1) h.advance hpm hpa hpc hx
    rw [Prng.advances, List.range_succ_eq_map, List.map_cons, List.map_map]
    refine List.cons_eq_cons.2 ⟨?_, ?_⟩
    · rw [show j + 0 + 1 = j + 1 from rfl, ← hx, BitVec.ofNat_toNat, BitVec.setWidth_eq]
    · rw [hr]
      apply List.map_congr_left
      intro k _
      simp only [Function.comp]
      rw [show j + 1 + k + 1 = j + (k + 1) + 1 by omega]

/-- The orbit of a generator whose modulus is positive stays below it, from `x_1` on, and from `x_0` on if
the seed is in range. -/
theorem Prng.orbit_lt {g : Prng} (hm : 0 < g.pm.toNat) (h0 : g.px0.toNat < g.pm.toNat) (k : Nat) :
    g.orbit k < g.pm.toNat := by
  cases k with
  | zero => exact h0
  | succ k => exact Nat.mod_lt _ hm

/-- The value after `n` advances from the seed is `x_n`. -/
theorem Prng.advances_resetGen_px {g : Prng} (hm : 0 < g.pm.toNat) (n : Nat) :
    (Prng.advances n g.resetGen).2.px = BitVec.ofNat 32 (g.orbit n) := by
  rw [(Prng.advances_spec n g.resetGen).2]
  have h := Prng.advances_eq_orbit hm n 0 g.resetGen rfl rfl rfl rfl
  simp only [h]
  cases n with
  | zero => simp [Prng.orbit]
  | succ n => simp [List.range_succ]

/-- Everything P_SEQ's loop leaves, from the reset generator (40_prng.md R136). -/
theorem Prng.advances_resetGen {g : Prng} (hm : 0 < g.pm.toNat) (n : Nat) :
    Prng.advances n g.resetGen =
      ((List.range n).map (fun k => BitVec.ofNat 32 (g.orbit (k + 1))),
       { g with px := BitVec.ofNat 32 (g.orbit n), phcnt := BitVec.ofNat 32 n,
                hist := (List.range n).map (fun k => BitVec.ofNat 32 (g.orbit (k + 1))) }) := by
  have h := Prng.advances_eq_orbit hm n 0 g.resetGen rfl rfl rfl rfl
  simp only [Nat.zero_add] at h
  apply Prod.ext h
  have hp := Prng.advances_resetGen_px hm n
  rw [(Prng.advances_spec n g.resetGen).2] at hp ⊢
  simp only at hp
  rw [hp, h]
  simp

/-- The period search at a value seen before, at index `k`, ends with the difference of the indices. -/
theorem Prng.periodLoop_found {fuel j k : Nat} {seen : List (Word × Nat)} {g : Prng}
    (h : seen.lookup g.advance.px = some k) :
    Prng.periodLoop (fuel + 1) j seen g = (some (j - k), g.advance) := by
  rw [Prng.periodLoop]; simp only [h]

/-- The period search at a new value goes on, having seen it at index `j`. -/
theorem Prng.periodLoop_new {fuel j : Nat} {seen : List (Word × Nat)} {g : Prng}
    (h : seen.lookup g.advance.px = none) :
    Prng.periodLoop (fuel + 1) j seen g =
      Prng.periodLoop fuel (j + 1) ((g.advance.px, j) :: seen) g.advance := by
  rw [Prng.periodLoop]; simp only [h]

/-- The period search only advances: it leaves the generator as some number of advances, at most `fuel`, do. -/
theorem Prng.periodLoop_advances (fuel j : Nat) (seen : List (Word × Nat)) (g : Prng) :
    ∃ k ≤ fuel, (Prng.periodLoop fuel j seen g).2 = (Prng.advances k g).2 := by
  induction fuel generalizing j seen g with
  | zero => exact ⟨0, Nat.le_refl _, rfl⟩
  | succ fuel ih =>
    cases h : seen.lookup g.advance.px with
    | some i => exact ⟨1, by omega, by rw [Prng.periodLoop_found h]; rfl⟩
    | none =>
      obtain ⟨k, hk, e⟩ := ih (j + 1) ((g.advance.px, j) :: seen) g.advance
      exact ⟨k + 1, by omega, by rw [Prng.periodLoop_new h, e]; rfl⟩

end Sys2Proof.Machine
end

