-- ==== Sys2Proof/Tests/Slice0.lean ====
section
/-! SUPPORT. Tests. The expected values are those of spec/95_test_vectors.md (named V-...) or of the example in
the command's own rule, never the model's answer. Below them, for every obligation with hypotheses, a state
that meets them. -/

namespace Sys2Proof.Tests

open Sys2Proof.Machine

section

/- One theorem after another: each kernel evaluation has a thread of its own, and many at once would need more
stack than the machine has. -/
set_option Elab.async false

/-! ### Helpers -/

/-- The next state of an outcome. -/
def nextOf : Host.Outcome State Fault Refusal → Option State
  | .next t => some t
  | .fault _ => none
  | .refused _ => none

/-- The state after a command. -/
def run (i : Instr) (s : State) : State := (nextOf (exec i s)).getD State.reset

/-- The state after the word `cw` is written to CMD. -/
def write (cw : Word) (s : State) : State := (nextOf (step (s.withFetchWord 32 cw.toNat))).getD State.reset

/-- The state after one access. -/
def after (t : Txn) (s : State) : State :=
  (nextOf (step { s with port := [.txn t] })).getD State.reset

/-- ERRCODE and STATUS after the word `cw` is written to CMD right after reset. -/
def codeAndStatus (cw : Word) : Word × Word :=
  let t := write cw State.reset
  (t.readReg .errcode, t.readReg .status)

/-- The state after reset with operands and a string in BUF. -/
def given (arg0 arg1 arg2 : Word) (at_ : Nat) (bytes : List Byte) : State :=
  { State.reset with arg0 := arg0, arg1 := arg1, arg2 := arg2 }.memWrite at_ bytes

/-- A state with a valid generator at its seed. -/
def withGen (m a c x0 : Word) (s : State) : State :=
  { s with prng :=
    { pm := m, pa := a, pc := c, px0 := x0, px := x0, phcnt := 0, pvalid := true, hist := [] } }

/-- A state with the schedule of V-C1: the zero key, 12 rounds. -/
def keyed (s : State) : State :=
  { s with ks := { s := keySchedule (List.replicate 16 0) 16 12, cr := 12, cb := 16, ksvalid := true } }

/-- A state with the schedule of V-C7: the key of the password "abc". -/
def keyedAbc (s : State) : State :=
  { s with ks :=
    { s := keySchedule [0x90, 0x01, 0x50, 0x98, 0x3C, 0xD2, 0x4F, 0xB0,
                        0xD6, 0x96, 0x3F, 0x7D, 0x28, 0xE1, 0x7F, 0x72] 16 12,
      cr := 12, cb := 16, ksvalid := true } }

def abc : List Byte := [0x61, 0x62, 0x63]

/-- The schedule of V-C6 (a): no round, two words. -/
def tiny (s : State) : State :=
  { s with ks := { s := [0x749CC870, 0x405714C0], cr := 0, cb := 1, ksvalid := true } }

/-- The four chaining registers. -/
def words (h : HashEngine) : List Word := [h.ha, h.hb, h.hc, h.hd]

/-! ### Ill-formed words are refused -/

/-- A reserved bit of format Z: the first, one in the middle, the last (V-E1). -/
theorem test_wf_refuses_reserved_z :
    commandWordWf 0x00000100 = false ∧ commandWordWf 0x00010013 = false ∧
    commandWordWf 0x80000012 = false := by decide

/-- A reserved bit of format K, below and above the field (V-E1). -/
theorem test_wf_refuses_reserved_k :
    commandWordWf 0x00000130 = false ∧ commandWordWf 0x01000030 = false := by decide

/-- The first and last opcode of each gap (V-E1). -/
theorem test_wf_refuses_unassigned :
    ([0x00000003, 0x0000000F, 0x00000015, 0x0000001F, 0x00000025, 0x00000031, 0x00000043,
      0x00000047, 0x0000004A, 0x000000FF, 0xFFFFFFFF] : List Word).all
      (fun cw => !commandWordWf cw) = true := by decide

/-- The decoder refuses the same words, by name. -/
theorem test_decode_refuses :
    decode 0x00000100 = .error .reservedBitSet ∧ decode 0x80000012 = .error .reservedBitSet ∧
    decode 0x00000130 = .error .reservedBitSet ∧ decode 0x01000030 = .error .reservedBitSet ∧
    decode 0x0000000F = .error .unassignedOpcode ∧ decode 0xFFFFFFFF = .error .unassignedOpcode := by
  decide

/-- Well-formed words of each format are accepted. -/
theorem test_wf_accepts :
    commandWordWf 0x00000000 = true ∧ commandWordWf 0x00FF0030 = true ∧
    commandWordWf 0xFFFFFF40 = true := by decide

/-! ### Decoding: words written out from 30_encoding.md R101 to R104 -/

theorem test_decode_system :
    decode 0x00000000 = .ok .nop ∧ decode 0x00000001 = .ok .clrerr ∧
    decode 0x00000002 = .ok .sreset := by decide

theorem test_decode_prng :
    decode 0x00000010 = .ok .pInit ∧ decode 0x00000011 = .ok .pReset ∧
    decode 0x00000012 = .ok .pNext ∧ decode 0x00000013 = .ok .pSeq ∧
    decode 0x00000014 = .ok .pPeriod := by decide

theorem test_decode_hash :
    decode 0x00000020 = .ok .hInit ∧ decode 0x00000021 = .ok .hUpdate ∧
    decode 0x00000022 = .ok .hFinal ∧ decode 0x00000023 = .ok .hDigest ∧
    decode 0x00000024 = .ok .hVerify := by decide

theorem test_decode_kderive :
    decode 0x00080030 = .ok (.kDerive 8) ∧ decode 0x00FF0030 = .ok (.kDerive 255) ∧
    decode 0x00000030 = .ok (.kDerive 0) := by decide

/-- Three different fields, so that no two can be exchanged (V-E2). -/
theorem test_decode_setkey :
    decode 0x20100C40 = .ok (.cSetkey 32 16 12) ∧ decode 0x40100C40 = .ok (.cSetkey 64 16 12) ∧
    decode 0x2001FF40 = .ok (.cSetkey 32 1 255) := by decide

theorem test_decode_cipher :
    decode 0x00000041 = .ok .cEcbEnc ∧ decode 0x00000042 = .ok .cEcbDec ∧
    decode 0x00000048 = .ok .cCbcEnc ∧ decode 0x00000049 = .ok .cCbcDec := by decide

/-- The assembler's examples of 30_encoding.md R115 and V-E2. -/
theorem test_assembler :
    AsmLine.expand (.cmd .pNext) = [.write32 0x000 0x00000012] ∧
    AsmLine.expand (.cmd (.cSetkey 32 16 12)) = [.write32 0x000 0x20100C40] ∧
    AsmLine.expand (.wr .pm 100) = [.write32 0x020 0x00000064] ∧
    AsmLine.expand (.bw8 3 0x80) = [.write8 0x10003 0x80] ∧
    AsmLine.expand (.br32 256) = [.read32 0x10100] := by decide

/-! ### From reset (V-E1, V-E3) -/

theorem test_codes_from_reset :
    codeAndStatus 0x00000010 = (2, 0x03) ∧ codeAndStatus 0x00000014 = (9, 0x03) ∧
    codeAndStatus 0x00000040 = (4, 0x03) ∧ codeAndStatus 0x20000040 = (5, 0x03) ∧
    codeAndStatus 0x00000049 = (9, 0x03) ∧ codeAndStatus 0x00000100 = (1, 0x03) ∧
    codeAndStatus 0x00000000 = (0, 0x00) := by decide

theorem test_success_from_reset :
    codeAndStatus 0x00000024 = (0, 0x10) ∧ codeAndStatus 0x00100030 = (0, 0x10) ∧
    codeAndStatus 0x20100C40 = (0, 0x08) := by decide +kernel

theorem test_port_registers :
    (after (.read32 0x000) State.reset).resp = some (.data32 0) ∧
    (after (.write32 0x040 0) State.reset).hash.ha = 0x67452301 ∧
    (after (.read32 0x00C) (after (.write32 0x00C 0xDEADBEEF) State.reset)).resp =
      some (.data32 0xDEADBEEF) := by decide

theorem test_port_hostErr :
    (after (.read32 0x038) State.reset).resp = some .hostErr ∧
    (after (.read32 0x088) State.reset).resp = some .hostErr ∧
    (after (.read32 0x022) State.reset).resp = some .hostErr ∧
    (after (.write32 0x10002 1) State.reset).resp = some .hostErr ∧
    (after (.read32 0x1FFFE) State.reset).resp = some .hostErr ∧
    (after (.write8 0x20000 1) State.reset).resp = some .hostErr := by decide

theorem test_port_buf :
    (after (.read8 0x1FFFF) (after (.write32 0x1FFFC 0x04030201) State.reset)).resp =
      some (.data8 0x04) ∧
    (after (.read8 0x10003) (after (.write32 0x10000 0x64636261) State.reset)).resp =
      some (.data8 0x64) := by decide

/-- Writing PM its old value clears PVALID (V-E3). -/
theorem test_pm_write_clears_pvalid :
    (after (.write32 0x020 100) (withGen 100 13 7 1 State.reset)).prng.pvalid = false := by decide

/-! ### Each command -/

/-- The example of 45_system.md R240. -/
theorem test_nop :
    let t := run .nop { State.reset with errcode := 8, err := true, sticky := true }
    t.errcode = 0 ∧ t.status = 0x02 := by decide

/-- The example of 45_system.md R241. -/
theorem test_clrerr : (run .clrerr { State.reset with sticky := true }).status = 0 := by decide

/-- The example of 45_system.md R242, and BUF kept. -/
theorem test_sreset :
    let t := run .sreset { given 1 2 3 7 [0x55] with key0 := 9, sticky := true }
    t.status = 0 ∧ t.key0 = 0 ∧ t.hash.ha = 0x67452301 ∧ t.readByte 7 = 0x55 := by decide

/-- V-P11: the boundary that is accepted and two that are not. -/
theorem test_pInit :
    let s (m a c x : Word) := { State.reset with prng := { Prng.reset with pm := m, pa := a, pc := c, px0 := x } }
    (run .pInit (s 100 99 99 99)).status = 0x04 ∧ (run .pInit (s 100 100 0 0)).errcode = 2 ∧
    (run .pInit (s 100 0 0 100)).errcode = 2 ∧ (run .pInit (s 0 0 0 0)).errcode = 2 := by decide

/-- V-P10. -/
theorem test_pReset :
    let t := run .pReset (run .pNext (withGen 100 13 7 1 State.reset))
    t.prng.px = 1 ∧ t.prng.phcnt = 0 ∧ t.res0 = 20 := by decide

/-- V-P10. -/
theorem test_pNext :
    let t := run .pNext (run .pNext (withGen 100 13 7 1 State.reset))
    t.res0 = 67 ∧ t.prng.px = 67 ∧ t.prng.phcnt = 2 := by decide

/-- V-P8: the product needs 64 bits. -/
theorem test_pNext_wide :
    (run .pNext (withGen 4294967295 4294967294 4294967294 4294967294 State.reset)).res0 = 0 := by
  decide

/-- V-P12: the list at the end of BUF. -/
theorem test_pSeq :
    let t := run .pSeq (withGen 100 13 7 1 (given 2 0 0xFFF8 0 []))
    t.memRead 65528 8 = [0x14, 0, 0, 0, 0x43, 0, 0, 0] ∧ t.prng.px = 67 := by decide

/-- V-P12: the three checks. -/
theorem test_pSeq_checks :
    (run .pSeq (withGen 100 13 7 1 (given 0 0 0 0 []))).errcode = 3 ∧
    (run .pSeq (withGen 100 13 7 1 (given 2 0 0xFFFC 0 []))).errcode = 10 ∧
    (run .pSeq (withGen 100 13 7 1 (given 0x40000001 0 0 0 []))).errcode = 10 := by decide

/-- V-P7: the cycle length is not the number of advances. -/
theorem test_pPeriod_tail :
    let t := run .pPeriod (withGen 8 2 0 1 (given 100 0 0 0 []))
    t.res0 = 1 ∧ t.res1 = 1 ∧ t.prng.px = 0 ∧ t.prng.phcnt = 4 := by decide

/-- V-P2: the bound is inclusive. -/
theorem test_pPeriod_bound :
    let t := run .pPeriod (withGen 100 13 7 1 (given 19 0 0 0 []))
    let u := run .pPeriod (withGen 100 13 7 1 (given 20 0 0 0 []))
    t.res0 = 19 ∧ t.res1 = 0 ∧ t.prng.px = 38 ∧ u.res0 = 20 ∧ u.res1 = 1 ∧ u.prng.px = 1 := by decide

/-- The example of 41_hash.md R171. -/
theorem test_hInit :
    let t := run .hInit { State.reset with hash := { HashEngine.reset with ha := 1, hlen := 3, hfin := true } }
    t.hash.ha = 0x67452301 ∧ t.hash.hlen = 0 ∧ t.hash.hfin = false := by decide

/-- The example of 41_hash.md R172: no block completed. -/
theorem test_hUpdate :
    let t := run .hUpdate (given 0 1 0 0 abc)
    let u := run .hUpdate { t with arg0 := 1, arg1 := 2 }
    u.hash.hlen = 3 ∧ u.hash.ha = 0x67452301 ∧ u.hash.hblk = abc := by decide

/-- V-H7: the empty range at the end of BUF is legal, the one after it is not. -/
theorem test_hUpdate_range :
    (run .hUpdate (given 65536 0 0 0 [])).errcode = 0 ∧
    (run .hUpdate (given 65537 0 0 0 [])).errcode = 10 := by decide

/-- The example of 41_hash.md R173. -/
theorem test_hFinal :
    words (run .hFinal { State.reset with hash := { HashEngine.reset with hlen := 3, hblk := abc } }).hash =
      [0x98500190, 0xB04FD23C, 0x7D3F96D6, 0x727FE128] := by decide +kernel

/-- V-H1 and V-H4, L = 56: two compressions. -/
theorem test_hDigest :
    words (run .hDigest State.reset).hash = [0xD98C1DD4, 0x04B2008F, 0x980980E9, 0x7E42F8EC] ∧
    words (run .hDigest (given 0 56 0 0 (List.replicate 56 0x61))).hash =
      [0xC78A0C3B, 0xB028F803, 0x70196C4C, 0x1872D106] := by decide +kernel

/-- V-H8: a match, and a mismatch that is no error. -/
theorem test_hVerify :
    let s := { given 0 3 0 0 abc with hexp0 := 0x98500190, hexp1 := 0xB04FD23C, hexp2 := 0x7D3F96D6,
                                      hexp3 := 0x727FE128 }
    (run .hVerify s).res0 = 1 ∧ (run .hVerify { s with arg1 := 2, res0 := 7 }).res0 = 0 ∧
    (run .hVerify { s with arg1 := 2 }).errcode = 0 := by decide +kernel

/-- V-K3: only five bytes change. -/
theorem test_kDerive :
    let t := run (.kDerive 5) { given 0 3 0 0 abc with
      key0 := 0xAAAAAAAA, key1 := 0x55555555, key2 := 0xAAAAAAAA, key3 := 0xAAAAAAAA }
    t.res0 = 5 ∧ t.key0 = 0x98500190 ∧ t.key1 = 0x5555553C ∧ t.key2 = 0xAAAAAAAA := by decide +kernel

/-- V-K5: silently shorter than requested. -/
theorem test_kDerive_more :
    let t := run (.kDerive 20) (given 0 3 0 0 abc)
    t.res0 = 16 ∧ t.key3 = 0x727FE128 ∧ t.errcode = 0 := by decide +kernel

/-- V-C6 (b): five key bytes, the upper bytes of KEY1 ignored. -/
theorem test_cSetkey :
    let t := run (.cSetkey 32 5 1) { State.reset with key0 := 0x04030201, key1 := 0xFFFFFF05 }
    t.ks.s = [0x3289E221, 0x1B11E1A9, 0x8E4A0B03, 0x6E949434] ∧ t.ks.cb = 5 ∧ t.ks.cr = 1 := by
  decide +kernel

/-- V-C1: the first and last words of the schedule of the zero key. -/
theorem test_cSetkey_zero :
    let t := run (.cSetkey 32 16 12) State.reset
    t.ks.s.take 2 = [0x9BBBD8C8, 0x1A37F7FB] ∧ t.ks.s.getLast? = some 0x65046380 := by decide +kernel

/-- V-C2, in place (V-C8). -/
theorem test_cEcbEnc :
    (run .cEcbEnc (keyed (given 65528 0 65528 65528 (List.replicate 8 0)))).memRead 65528 8 =
      [0x21, 0xA5, 0xDB, 0xEE, 0x15, 0x4B, 0x8F, 0x6D] := by decide +kernel

/-- V-C4: a rotation by zero places. -/
theorem test_cEcbEnc_rotation_by_zero :
    (run .cEcbEnc (keyed (given 0 0 8 0 [0, 0, 0, 0, 0x05, 0x08, 0xC8, 0xE5]))).memRead 8 8 =
      [0x52, 0x62, 0x9F, 0x46, 0x13, 0x6E, 0x27, 0x9C] := by decide +kernel

/-- V-C3. -/
theorem test_cEcbDec :
    (run .cEcbDec (keyed (given 0 0 8 0 (List.replicate 8 0)))).memRead 8 8 =
      [0x13, 0x6C, 0xE5, 0x48, 0x0F, 0xF9, 0x16, 0x96] := by decide +kernel

/-- V-B2. -/
theorem test_cCbcEnc :
    let t := run .cCbcEnc (keyedAbc (withGen 100 13 7 1 (given 0 5 32 0 [0x48, 0x45, 0x4C, 0x4C, 0x4F])))
    t.memRead 32 16 = [0x37, 0xD0, 0xD8, 0x05, 0x62, 0x35, 0x0B, 0x45,
                       0xFB, 0x7A, 0x49, 0xA7, 0xE3, 0xF2, 0x34, 0x04] ∧
    t.res0 = 16 ∧ t.prng.px = 67 ∧ t.prng.hist = [20, 67] := by decide +kernel

/-- V-B5: source and destination overlap. -/
theorem test_cCbcEnc_overlap :
    let s := given 0 8 4 0 [0x31, 0x32, 0x33, 0x34, 0x35, 0x36, 0x37, 0x38]
    (run .cCbcEnc (keyedAbc (withGen 100 13 7 1 s))).memRead 0 28 =
      [0x31, 0x32, 0x33, 0x34,
       0x37, 0xD0, 0xD8, 0x05, 0x62, 0x35, 0x0B, 0x45, 0x72, 0x3D, 0x82, 0x95,
       0xE8, 0x09, 0x30, 0x9C, 0xAA, 0xB4, 0x76, 0xAD, 0x8C, 0x54, 0x3D, 0x12] := by decide +kernel

/-- V-B2 decrypted: the plaintext at ARG2, its length in RES0. -/
theorem test_cCbcDec :
    let t := run .cCbcDec (keyedAbc (given 0 16 32 0
      [0x37, 0xD0, 0xD8, 0x05, 0x62, 0x35, 0x0B, 0x45,
       0xFB, 0x7A, 0x49, 0xA7, 0xE3, 0xF2, 0x34, 0x04]))
    t.memRead 32 5 = [0x48, 0x45, 0x4C, 0x4C, 0x4F] ∧ t.res0 = 5 := by decide +kernel

/-- V-B9: the order of the checks. -/
theorem test_cCbcDec_checks :
    let code (a0 a1 a2 : Word) := (run .cCbcDec (tiny (given a0 a1 a2 0 []))).errcode
    code 0 12 0 = 6 ∧ code 0 17 0 = 7 ∧ code 0xFFF8 16 0 = 10 ∧ code 0 65536 9 = 10 ∧
    (run .cCbcDec (given 0 12 0 0 [])).errcode = 9 := by decide

/-- V-B0: the last byte alone decides. -/
theorem test_unpad :
    unpad8 [0x41, 0x41, 0x41, 0x41, 0x41, 0x41, 0x07, 0x02] =
      some [0x41, 0x41, 0x41, 0x41, 0x41, 0x41] ∧
    unpad8 [0x41, 0x41, 0x41, 0x41, 0x41, 0x41, 0x41, 0x00] = none ∧
    unpad8 [0x41, 0x41, 0x41, 0x41, 0x41, 0x41, 0x41, 0x09] = none := by decide

/-! ### The hypotheses of the obligations can be met

One theorem per obligation that has hypotheses, named after it, each clause at a boundary of its range. -/

/-- A state that meets the invariant with every engine in use: a recorded error, a generator that has emitted a
value, three bytes waiting in HBLK, a schedule, bytes in BUF. -/
def busy (port : List Input) : State :=
  { tiny (given 0 3 64 0 abc) with
    errcode := 8, err := true, sticky := true, key0 := 1,
    prng := { pm := 100, pa := 13, pc := 7, px0 := 1, px := 20, phcnt := 1, pvalid := true, hist := [20] },
    hash := { HashEngine.reset with hlen := 3, hblk := abc }, port := port }

theorem busy_inv : (busy [.txn (.write32 0x000 0x12)]).Inv :=
  ⟨by decide, by decide, by decide, by decide,
    ⟨by decide, by decide, fun _ v hv => by rw [List.mem_singleton.1 hv]; decide⟩,
    ⟨by decide, by decide⟩, ⟨by decide, by decide⟩⟩

theorem witness_EncodeOfDecodeIsTheWord : decode 0xFFFFFF40 = .ok (.cSetkey 255 255 255) := by decide

theorem witness_DecoderAgreesWithOpcodeMap :
    decode 0x00FF0030 = .ok (.kDerive 255) ∧
    (⟨"K_DERIVE", 0xFF00FFFF, 0x00000030⟩ : OpcodeRow) ∈ opcodeRows ∧
    OpcodeRow.selects ⟨"K_DERIVE", 0xFF00FFFF, 0x00000030⟩ 0x00FF0030 = true := by decide

theorem witness_IllegalWordOnlyRecordsTheError :
    commandWordWf 0x00000100 = false ∧ commandWordWf 0x000000FF = false ∧
    (busy [.txn (.write32 0x000 0x00000100)]).port = [.txn (.write32 0x000 0x00000100)] := by decide

theorem witness_StepRunsTheIssuedCommand :
    (busy [.txn (.write32 0x000 0x00000012), .hwReset]).port =
      [.txn (.write32 0x000 0x00000012), .hwReset] ∧ decode 0x00000012 = .ok .pNext := by decide

theorem witness_HardwareResetGivesTheResetState : (busy [.hwReset]).port = [.hwReset] := rfl

/-- The first and last rows of the table, and two neighbours of one kind. -/
theorem witness_RegisterReadHasNoSideEffect :
    (busy [.txn (.read32 0x084)]).port = [.txn (.read32 Reg.cb.offset)] ∧
    (busy [.txn (.read32 0x000)]).port = [.txn (.read32 Reg.cmd.offset)] ∧
    (busy [.txn (.read32 0x040)]).port = [.txn (.read32 Reg.ha.offset)] ∧
    (busy [.txn (.read32 0x044)]).port = [.txn (.read32 Reg.hb.offset)] := by decide

theorem witness_PlainRegisterWriteStores :
    Reg.arg0 ∈ plainRegs ∧ Reg.key3 ∈ plainRegs ∧
    (busy [.txn (.write32 0x00C 5)]).port = [.txn (.write32 Reg.arg0.offset 5)] ∧
    (busy [.txn (.write32 0x07C 5)]).port = [.txn (.write32 Reg.key3.offset 5)] := by decide

theorem witness_ParameterWriteInvalidatesTheGenerator :
    Reg.pm ∈ paramRegs ∧ Reg.px0 ∈ paramRegs ∧
    (busy [.txn (.write32 0x020 100)]).port = [.txn (.write32 Reg.pm.offset 100)] ∧
    (busy [.txn (.write32 0x02C 1)]).port = [.txn (.write32 Reg.px0.offset 1)] := by decide

theorem witness_ReadOnlyRegisterWriteIsIgnored :
    Reg.status ∈ readOnlyRegs ∧ Reg.cb ∈ readOnlyRegs ∧
    (busy [.txn (.write32 0x004 5)]).port = [.txn (.write32 Reg.status.offset 5)] ∧
    (busy [.txn (.write32 0x084 5)]).port = [.txn (.write32 Reg.cb.offset 5)] ∧
    (busy [.txn (.read32 0x000)]).port = [.txn (.read32 0x000)] := by decide

/-- The accesses at the ends of each range, and the first ones outside. -/
theorem witness_HostErrExactlyWhenNotAccepted :
    Txn.accepted (.read32 0x084) ∧ ¬ Txn.accepted (.read32 0x088) ∧ ¬ Txn.accepted (.read32 0x038) ∧
    Txn.accepted (.read32 0x1FFFC) ∧ ¬ Txn.accepted (.read32 0x20000) ∧
    ¬ Txn.accepted (.read32 0x1FFFE) ∧ Txn.accepted (.write32 0x000 0) ∧
    ¬ Txn.accepted (.write32 0x0FFFC 0) ∧ Txn.accepted (.read8 0x10000) ∧
    ¬ Txn.accepted (.read8 0x0FFFF) ∧ Txn.accepted (.write8 0x1FFFF 0) ∧
    ¬ Txn.accepted (.write8 0x20000 0) ∧ ¬ Txn.accepted (.otherWidth 0x10000) ∧
    (busy [.txn (.read32 0x088)]).port = [.txn (.read32 0x088)] := by
  refine ⟨?_, ?_, ?_, ?_, ?_, ?_, ?_, ?_, ?_, ?_, ?_, ?_, ?_, rfl⟩ <;>
    (unfold Txn.accepted; try unfold isRegOffset) <;> decide

theorem witness_BufWriteLandsLittleEndian :
    65535 < 65536 ∧ 65532 + 4 ≤ 65536 ∧ 65532 % 4 = 0 ∧
    (busy [.txn (.write8 0x1FFFF 7)]).port = [.txn (.write8 (0x10000 + 65535) 7)] ∧
    (busy [.txn (.write32 0x1FFFC 7)]).port = [.txn (.write32 (0x10000 + 65532) 7)] := by decide

theorem witness_BufReadIsLittleEndian :
    65535 < 65536 ∧ 65532 + 4 ≤ 65536 ∧ 65532 % 4 = 0 ∧
    (busy [.txn (.read8 0x1FFFF)]).port = [.txn (.read8 (0x10000 + 65535))] ∧
    (busy [.txn (.read32 0x1FFFC)]).port = [.txn (.read32 (0x10000 + 65532))] := by decide

theorem witness_OtherAccessesKeepTheErrorRecord :
    ∃ t, (busy [.txn (.write32 0x020 5)]).port = [.txn (.write32 0x020 5)] ∧
      (∀ cw, Txn.write32 0x020 5 ≠ .write32 0x000 cw) ∧
      step (busy [.txn (.write32 0x020 5)]) = .next t := ⟨_, rfl, by simp, rfl⟩

theorem witness_IdleStepHoldsTheState : (busy []).port = [] := rfl

theorem witness_StepKeepsTheInvariant :
    (busy [.txn (.write32 0x000 0x12)]).Inv ∧
    ∃ t, step (busy [.txn (.write32 0x000 0x12)]) = .next t ∧ t.prng.hist = [20, 67] :=
  ⟨busy_inv, _, rfl, by decide⟩

theorem witness_FailedCommandChangesNothingElse :
    ∃ t, exec .hUpdate { busy [] with arg1 := 65537 } = .next t ∧ t.err = true := ⟨_, rfl, rfl⟩

theorem witness_CommandsReportOnlyTheirErrors :
    ∃ t u, exec .pNext (busy []) = .next t ∧ t.err = false ∧
      exec .pNext State.reset = .next u ∧ u.err = true := ⟨_, _, rfl, rfl, rfl, rfl⟩

/-- From a state with an error recorded: a command whose checks hold, CLRERR, and one whose checks do not. -/
theorem witness_SuccessfulCommandClearsTheError :
    (busy []).err = true ∧ checksHold .pNext (busy []) ∧ Instr.pNext ≠ .clrerr ∧
    Instr.pNext ≠ .sreset ∧ checksHold .clrerr (busy []) ∧ ¬ checksHold .pNext State.reset := by
  unfold checksHold; decide

theorem witness_ErrorRecordDoesNotInfluenceCommands :
    ∃ t, exec .pNext (busy []) = .next t ∧ t.res0 = 67 := ⟨_, rfl, by decide⟩

theorem witness_CommandsWriteOnlyTheirRange :
    ∃ t u, exec .cEcbEnc (busy []) = .next t ∧ ¬ inBytes (writeRange .cEcbEnc (busy [])).1
        (writeRange .cEcbEnc (busy [])).2 72 ∧ ¬ inBytes (writeRange .cEcbEnc (busy [])).1
        (writeRange .cEcbEnc (busy [])).2 63 ∧
      exec .cCbcDec (busy []) = .next u ∧ u.err = true :=
  ⟨_, _, rfl, by simp only [inBytes]; decide, by simp only [inBytes]; decide, rfl, rfl⟩

/-- Two memories that agree on the three bytes read and differ in the next. -/
theorem witness_CommandsDependOnlyOnTheBytesTheyRead :
    (∀ a, inBytes (readRange .hDigest (busy [])).1 (readRange .hDigest (busy [])).2 a →
      State.readByte { busy [] with buf := (busy []).buf.put 3 0x64 } a = (busy []).readByte a) ∧
    (busy []).buf.put 3 0x64 ≠ (busy []).buf := by
  refine ⟨fun a h => ?_, by decide⟩
  have h3 : a < 3 := h.2
  have : a = 0 ∨ a = 1 ∨ a = 2 := by omega
  rcases this with rfl | rfl | rfl <;> rfl

theorem witness_StateIsChangedOnlyByItsOwnCommands :
    ∃ t, exec .pNext (busy []) = .next t ∧ Instr.pNext ≠ .sreset ∧ t.prng ≠ (busy []).prng ∧
      t.res0 ≠ (busy []).res0 := ⟨_, rfl, by decide, by decide, by decide⟩

theorem witness_PInitValidatesTheParameters :
    let s (m a c x : Word) := { State.reset with prng := { Prng.reset with pm := m, pa := a, pc := c, px0 := x } }
    let ok (s : State) := 0 < s.prng.pm.toNat ∧ s.prng.pa.toNat < s.prng.pm.toNat ∧
      s.prng.pc.toNat < s.prng.pm.toNat ∧ s.prng.px0.toNat < s.prng.pm.toNat
    ok (s 1 0 0 0) ∧ ok (s 0xFFFFFFFF 0xFFFFFFFE 0xFFFFFFFE 0xFFFFFFFE) ∧ ¬ ok (s 0 0 0 0) ∧
      ¬ ok (s 1 0 0 1) := by decide

theorem witness_PResetReturnsToTheSeed :
    (busy []).prng.pvalid = true ∧ State.reset.prng.pvalid = false := by decide

theorem witness_PNextAdvancesTheGenerator :
    (busy []).prng.pvalid = true ∧ State.reset.prng.pvalid = false ∧
    (67 : Word) = BitVec.ofNat 32 (((busy []).prng.pa.toNat * (busy []).prng.px.toNat +
      (busy []).prng.pc.toNat) % (busy []).prng.pm.toNat) := by decide

/-- The longest list, and the shortest at the end of BUF. -/
theorem witness_PSeqWritesTheSequence :
    let ok (s : State) := 1 ≤ s.arg0.toNat ∧ s.prng.pvalid = true ∧ 0 < s.prng.pm.toNat ∧
      s.arg2.toNat + 4 * s.arg0.toNat ≤ 65536
    ok { busy [] with arg0 := 16384, arg2 := 0 } ∧ ok { busy [] with arg0 := 1, arg2 := 65532 } := by
  decide

theorem witness_PSeqErrorsComeInOrder :
    State.reset.arg0 = 0 ∧ (given 1 0 0 0 []).arg0 ≠ 0 ∧ (given 1 0 0 0 []).prng.pvalid = false ∧
    (let s := { busy [] with arg0 := 1, arg2 := 65533 }
     s.arg0 ≠ 0 ∧ s.prng.pvalid = true ∧ 65536 < s.arg2.toNat + 4 * s.arg0.toNat) := by decide

/-- V-P7, whose tail is 3 and whose cycle is 1: a bound that just suffices, and one that does not. -/
theorem witness_PPeriodFindsTheCycleLength :
    let s (n : Word) := withGen 8 2 0 1 (given n 0 0 0 [])
    (s 4).prng.pvalid = true ∧ 0 < (s 4).prng.pm.toNat ∧ (s 4).prng.px0.toNat < (s 4).prng.pm.toNat ∧
    (s 4).prng.orbit (3 + 1) = (s 4).prng.orbit 3 ∧ 3 + 1 ≤ (s 4).arg0.toNat ∧
    (s 3).arg0.toNat < 3 + 1 := by decide

theorem witness_HUpdateAbsorbsTheChunk :
    (busy []).hash.hfin = false ∧ (busy []).hash.hblk.length = (busy []).hash.hlen.toNat % 64 ∧
    (busy []).arg0.toNat + (busy []).arg1.toNat ≤ 65536 ∧
    (given 65535 1 0 0 []).arg0.toNat + (given 65535 1 0 0 []).arg1.toNat ≤ 65536 ∧
    { HashEngine.reset with hfin := true }.hfin = true ∧
    65536 < (given 65535 2 0 0 []).arg0.toNat + (given 65535 2 0 0 []).arg1.toNat := by decide

theorem witness_ChunkBoundariesDoNotMatter :
    (busy []).hash.hfin = false ∧
    (65530 : Word).toNat + (4 : Word).toNat + (2 : Word).toNat ≤ 65536 := by decide

theorem witness_HFinalPadsAndFinalizes :
    (busy []).hash.hfin = false ∧ (busy []).hash.hblk.length = (busy []).hash.hlen.toNat % 64 ∧
    { HashEngine.reset with hfin := true }.hfin = true := by decide

theorem witness_HDigestCompressesThePaddedMessage :
    (given 65536 0 0 0 []).arg0.toNat + (given 65536 0 0 0 []).arg1.toNat ≤ 65536 ∧
    65536 < (given 65537 0 0 0 []).arg0.toNat + (given 65537 0 0 0 []).arg1.toNat := by decide

theorem witness_OneShotEqualsStreamed :
    (busy []).arg0.toNat + (busy []).arg1.toNat ≤ 65536 := by decide

theorem witness_HVerifyComparesTheDigest :
    (given 0 65536 0 0 []).arg0.toNat + (given 0 65536 0 0 []).arg1.toNat ≤ 65536 ∧
    65536 < (given 1 65536 0 0 []).arg0.toNat + (given 1 65536 0 0 []).arg1.toNat := by decide

/-- Lengths at the two ends of the padding's range. -/
theorem witness_PaddingFillsTheLastBlock : 55 % 64 = 55 ∧ 56 % 64 = 56 ∧ 64 % 64 = 0 ∧ 55 + 9 ≤ 64 := by
  decide

theorem witness_KDeriveWritesTheKeyPrefix :
    (busy []).arg0.toNat + (busy []).arg1.toNat ≤ 65536 ∧
    65536 < (given 65535 2 0 0 []).arg0.toNat + (given 65535 2 0 0 []).arg1.toNat := by decide

theorem witness_SharedHashEngineEndsAStreamedHash :
    ∃ t, exec (.kDerive 0) (busy []) = .next t ∧ t.err = false := ⟨_, rfl, rfl⟩

theorem witness_ShorterDerivationGivesTheSameSchedule :
    (busy []).arg0.toNat + (busy []).arg1.toNat ≤ 65536 ∧ 1 ≤ (1 : Byte).toNat ∧
    (1 : Byte).toNat ≤ 16 ∧ (16 : Byte).toNat ≤ 16 := by decide

theorem witness_CSetkeyBuildsTheSchedule :
    (32 : Byte).toNat = 32 ∧ 1 ≤ (1 : Byte).toNat ∧ (16 : Byte).toNat ≤ 16 ∧ (33 : Byte).toNat ≠ 32 ∧
    (0 : Byte).toNat = 0 ∧ 16 < (17 : Byte).toNat := by decide

theorem witness_KeyWordsAreLittleEndianAndPadded :
    (List.replicate 16 (0x41 : Byte)).length = 16 ∧ 1 ≤ 16 ∧ 3 < (16 + 3) / 4 ∧ 0 < (1 + 3) / 4 ∧ 3 < 4 := by
  decide

theorem witness_InitialScheduleIsAnArithmeticSequence :
    0 < 2 ∧ 0 + 1 < 2 ∧ (initialSchedule 2)[0]? = some 0xB7E15163 := by decide

/-- No round, and twelve. -/
theorem witness_BlockEncryptionAndDecryptionAreInverse :
    (List.replicate 8 (0x41 : Byte)).length = 8 ∧
    (let k := (tiny State.reset).ks; k.s.length = 2 * (k.cr.toNat + 1) ∧ k.cr.toNat = 0) ∧
    (let k := (keyed State.reset).ks; k.s.length = 2 * (k.cr.toNat + 1) ∧ 0 < k.cr.toNat) := by
  decide +kernel

theorem witness_EcbCommandsTransformOneBlock :
    let s (a0 a2 : Word) := { busy [] with arg0 := a0, arg2 := a2 }
    (s 65528 65528).ks.ksvalid = true ∧ (s 65528 65528).arg0.toNat + 8 ≤ 65536 ∧
    (s 65528 65528).arg2.toNat + 8 ≤ 65536 ∧ State.reset.ks.ksvalid = false ∧
    65536 < (s 65529 0).arg0.toNat + 8 ∧ 65536 < (s 0 65529).arg2.toNat + 8 := by decide

theorem witness_CbcEncryptWritesThePayload :
    let s := { busy [] with arg0 := 0, arg1 := 65527, arg2 := 0 }
    65536 = 8 + 8 * (s.arg1.toNat / 8 + 1) ∧ s.ks.ksvalid = true ∧ s.prng.pvalid = true ∧
    0 < s.prng.pm.toNat ∧ s.arg0.toNat + s.arg1.toNat ≤ 65536 ∧ s.arg2.toNat + 65536 ≤ 65536 := by
  decide

/-- V-B2, decrypted. -/
theorem witness_CbcDecryptWritesThePlaintext :
    let s := keyedAbc (given 65520 16 65528 65520
      [0x37, 0xD0, 0xD8, 0x05, 0x62, 0x35, 0x0B, 0x45,
       0xFB, 0x7A, 0x49, 0xA7, 0xE3, 0xF2, 0x34, 0x04])
    s.ks.ksvalid = true ∧ 16 ≤ s.arg1.toNat ∧ s.arg1.toNat % 8 = 0 ∧
    s.arg0.toNat + s.arg1.toNat ≤ 65536 ∧ s.arg2.toNat + (s.arg1.toNat - 8) ≤ 65536 ∧
    cbcDecrypt s.ks (s.memRead s.arg0.toNat s.arg1.toNat) = some [0x48, 0x45, 0x4C, 0x4C, 0x4F] := by
  decide +kernel

theorem witness_CbcErrorsComeInOrder :
    let s (a0 a1 a2 : Word) := { busy [] with arg0 := a0, arg1 := a1, arg2 := a2 }
    State.reset.ks.ksvalid = false ∧ (s 0 0 0).ks.ksvalid = true ∧ (s 0 0 0).prng.pvalid = true ∧
    65536 < (s 0 65528 0).arg2.toNat + (8 + 8 * ((s 0 65528 0).arg1.toNat / 8 + 1)) ∧
    (s 0 15 0).arg1.toNat < 16 ∧ 16 ≤ (s 0 17 0).arg1.toNat ∧ (s 0 17 0).arg1.toNat % 8 ≠ 0 ∧
    (s 0xFFF8 16 0).arg1.toNat % 8 = 0 ∧
    65536 < (s 0xFFF8 16 0).arg0.toNat + (s 0xFFF8 16 0).arg1.toNat ∧
    65536 < (s 0 65536 9).arg2.toNat + ((s 0 65536 9).arg1.toNat - 8) := by decide

/-- The padding check fails: an all-zero payload decrypts to a block of zeros under V-C6 (a)'s schedule. -/
theorem witness_CbcErrorsComeInOrder_padding :
    let s := tiny (given 65520 16 65528 65520 (List.replicate 16 0))
    s.ks.ksvalid = true ∧ s.arg0.toNat + s.arg1.toNat ≤ 65536 ∧
    s.arg2.toNat + (s.arg1.toNat - 8) ≤ 65536 ∧
    cbcDecrypt s.ks (s.memRead s.arg0.toNat s.arg1.toNat) = none := by decide +kernel

/-- The shortest payload, whose one plaintext block is chained with the IV, and one with a second block. -/
theorem witness_ChainedDecryptionUndoesEncryption :
    (List.replicate 8 (0 : Byte)).length = 8 ∧ 16 ≤ (List.replicate 16 (0 : Byte)).length ∧
    (List.replicate 16 (0 : Byte)).length % 8 = 0 ∧ 0 < 16 / 8 - 1 ∧
    16 ≤ (List.replicate 24 (0 : Byte)).length ∧ (List.replicate 24 (0 : Byte)).length % 8 = 0 ∧
    1 < 24 / 8 - 1 := by decide

theorem witness_ChainedRoundTripThroughBuf :
    ∃ t, exec .cCbcEnc (busy []) = .next t ∧ t.err = false ∧
      (65528 : Word).toNat + 8 * ((busy []).arg1.toNat / 8 + 1) ≤ 65536 := ⟨_, rfl, rfl, by decide⟩

end

end Sys2Proof.Tests
end

section
/-! PROOFS, part 1: what one step, one access and one issued command word can do. -/

namespace Sys2Proof.Machine

/-- Everything a step can do: hold the state, reset the block, or handle the next access. -/
theorem step_cases {s t : State} (h : step s = .next t) :
    (s.port = [] ∧ t = s) ∨
    (∃ rest, s.port = .hwReset :: rest ∧ t = { s with port := rest }.hardwareReset) ∨
    (∃ x rest, s.port = .txn x :: rest ∧ access x { s with port := rest } = .next t) := by
  cases hp : s.port with
  | nil => rw [step_idle hp] at h; exact .inl ⟨rfl, (Host.Outcome.next.inj h).symm⟩
  | cons x rest =>
    cases x with
    | hwReset =>
      rw [step_hwReset hp] at h
      exact .inr (.inl ⟨rest, rfl, (Host.Outcome.next.inj h).symm⟩)
    | txn x => rw [step_txn hp] at h; exact .inr (.inr ⟨x, rest, rfl, h⟩)

/-- Everything an access can do: be refused, issue a command, or be a transaction of another kind. -/
theorem access_cases {x : Txn} {s t : State} (h : access x s = .next t) :
    (x.route = none ∧ t = s.respond .hostErr) ∨
    (∃ cw, x.route = some (.regWrite .cmd cw) ∧ issue cw (s.respond .done) = .next t) ∨
    (∃ op, x.route = some op ∧ (∀ cw, op ≠ .regWrite .cmd cw) ∧ t = s.transact op) := by
  cases hr : x.route with
  | none => rw [access_hostErr hr] at h; exact .inl ⟨rfl, (Host.Outcome.next.inj h).symm⟩
  | some op =>
    by_cases hc : ∃ cw, op = .regWrite .cmd cw
    · obtain ⟨cw, rfl⟩ := hc
      rw [access_cmd hr] at h
      exact .inr (.inl ⟨cw, rfl, h⟩)
    · have hc : ∀ cw, op ≠ .regWrite .cmd cw := fun cw e => hc ⟨cw, e⟩
      rw [access_transact hr hc] at h
      exact .inr (.inr ⟨op, rfl, hc, (Host.Outcome.next.inj h).symm⟩)

/-- A command whose checks hold, in the form of its rule, has its effect (60_exceptions.md R255). -/
theorem exec_of_checksHold {i : Instr} {s : State} (h : checksHold i s) :
    exec i s = .next (effectOf i s).finish :=
  exec_of_checks ((firstFailure_eq_none_iff _).1 ((firstFailure_checksOf_eq_none_iff i s).2 h))

/-- Everything a command word can do: fail with E_ILLEGAL, or run a command, which fails with the error of its
first failing check or has its effect. -/
theorem issue_cases (cw : Word) (s : State) :
    (∃ e, issue cw s = .next (s.raise e)) ∨
    (∃ i, checksHold i s ∧ issue cw s = .next (effectOf i s).finish) := by
  cases hd : decode cw with
  | error e => exact .inl ⟨.eIllegal, issue_illegal hd⟩
  | ok i =>
    rw [issue_ok hd]
    rcases exec_cases i s with ⟨e, -, he⟩ | ⟨hc, he⟩
    · exact .inl ⟨e, he⟩
    · exact .inr ⟨i, (firstFailure_checksOf_eq_none_iff i s).1 hc, he⟩

/-- Only the 32-bit write to offset 0 is a write to CMD (10_state.md R21). -/
theorem route_eq_cmd_iff {x : Txn} {cw : Word} :
    x.route = some (.regWrite .cmd cw) ↔ x = .write32 0x000 cw := by
  refine ⟨fun h => ?_, fun h => h ▸ route_cmd cw⟩
  cases x with
  | write32 off v =>
    simp only [Txn.route] at h
    split at h
    · obtain ⟨r, hr, e⟩ := Option.map_eq_some_iff.1 h
      obtain ⟨rfl, rfl⟩ := PortOp.regWrite.inj e
      have hoff : Reg.cmd.offset = off := by simpa using List.find?_some hr
      rw [← hoff]; rfl
    · simp at h
  | read32 off => simp only [Txn.route] at h; split at h <;> simp at h
  | read8 off => simp [Txn.route] at h
  | write8 off v => simp [Txn.route] at h
  | otherWidth off => simp [Txn.route] at h

/-- A 32-bit read of a register answers its value and changes nothing else (20_memory.md R81). -/
theorem step_read32_reg {s : State} {r : Reg} {rest : List Input}
    (h : s.port = .txn (.read32 r.offset) :: rest) :
    step s = .next { s with port := rest, resp := some (.data32 (s.readReg r)) } := by
  rw [step_txn h, access_transact (route_read32_reg r) (by simp)]
  cases r <;> rfl

/-- A 32-bit write to a register other than CMD is its register write (20_memory.md R81). -/
theorem step_write32_reg {s : State} {r : Reg} {v : Word} {rest : List Input} (hr : r ≠ .cmd)
    (h : s.port = .txn (.write32 r.offset v) :: rest) :
    step s = .next (({ s with port := rest }.writeReg r v).respond .done) := by
  rw [step_txn h, access_transact (route_write32_reg r v) (by simp [hr])]
  rfl

/-- The BUF decoder accepts exactly the `n`-byte accesses that lie in BUF (20_memory.md R71, R91). -/
theorem bufIndex_isSome_iff (off n : Nat) :
    (bufIndex off n).isSome = true ↔ 0x10000 ≤ off ∧ off + n ≤ 0x20000 := by
  rw [bufIndex, show Config.bufBase = 0x10000 from rfl, show Config.bufSize = 65536 from rfl]
  split <;> simp <;> omega

/-- The aligned BUF decoder accepts exactly the multiples of 4 in BUF (20_memory.md R82). -/
theorem bufIndex32_isSome_iff (off : Nat) :
    (bufIndex32 off).isSome = true ↔ 0x10000 ≤ off ∧ off < 0x20000 ∧ off % 4 = 0 := by
  rw [bufIndex32, bufIndex, show Config.bufBase = 0x10000 from rfl,
    show Config.bufSize = 65536 from rfl]
  split
  · by_cases h4 : (off - 0x10000) % 4 = 0 <;> simp [Option.filter, h4] <;> omega
  · simp; omega

/-- Below BUF a 32-bit access is for the register decoder, from there on for the aligned BUF decoder: together
they accept what the map says (20_memory.md R91). -/
theorem route32_isSome_iff (off : Nat) (f : Reg → PortOp) (g : Nat → PortOp) :
    (if off < Config.bufBase then (regAt off).map f else (bufIndex32 off).map g).isSome = true ↔
      isRegOffset off ∨ (0x10000 ≤ off ∧ off < 0x20000 ∧ off % 4 = 0) := by
  have hb : Config.bufBase = 0x10000 := rfl
  split
  · rw [Option.isSome_map, regAt_isSome_iff]
    exact ⟨.inl, fun h => h.resolve_right (by omega)⟩
  · have hr : ¬ isRegOffset off := fun h => by have := h.1; omega
    rw [Option.isSome_map, bufIndex32_isSome_iff]; tauto

/-- Address decoding accepts exactly the accesses of the map (20_memory.md R82, R84, R91). -/
theorem route_isSome_iff (x : Txn) : x.route.isSome = true ↔ x.accepted := by
  cases x with
  | read8 off =>
    rw [Txn.route, Option.isSome_map, bufIndex_isSome_iff, Txn.accepted]; omega
  | write8 off v =>
    rw [Txn.route, Option.isSome_map, bufIndex_isSome_iff, Txn.accepted]; omega
  | read32 off => exact route32_isSome_iff off _ _
  | write32 off v => exact route32_isSome_iff off _ _
  | otherWidth off => simp [Txn.route, Txn.accepted]

/-- The bytes that a BUF write stores to lie in BUF. -/
def PortOp.fits : PortOp → Prop
  | .bufWrite8 k _ => k + 1 ≤ Config.bufSize
  | .bufWrite32 k _ => k + 4 ≤ Config.bufSize
  | .regRead _ | .regWrite _ _ | .bufRead8 _ | .bufRead32 _ => True

/-- What address decoding accepts fits in BUF (20_memory.md R82). -/
theorem route_fits {x : Txn} {op : PortOp} (h : x.route = some op) : op.fits := by
  cases x with
  | write8 off v =>
    obtain ⟨k, hk, rfl⟩ := Option.map_eq_some_iff.1 h
    exact bufIndex_fits hk
  | write32 off v =>
    rw [Txn.route] at h
    split at h
    · obtain ⟨r, -, rfl⟩ := Option.map_eq_some_iff.1 h; trivial
    · obtain ⟨k, hk, rfl⟩ := Option.map_eq_some_iff.1 h
      exact bufIndex_fits (Option.filter_eq_some_iff.1 hk).1
  | read8 off => obtain ⟨k, -, rfl⟩ := Option.map_eq_some_iff.1 h; trivial
  | read32 off =>
    rw [Txn.route] at h
    split at h
    · obtain ⟨r, -, rfl⟩ := Option.map_eq_some_iff.1 h; trivial
    · obtain ⟨k, -, rfl⟩ := Option.map_eq_some_iff.1 h; trivial
  | otherWidth off => simp [Txn.route] at h

end Sys2Proof.Machine
end

section
/-! PROOFS, part 2: the invariant of the machine. Each engine's operations keep its part, each command keeps
the parts and each end of a command the record of errors, so every step keeps the whole. -/

namespace Sys2Proof.Machine

/-! ### The PRNG Engine -/

/-- A generator without valid parameters is bound by the count of its values only. -/
theorem Prng.inv_of_pvalid_eq_false {g : Prng} (hv : g.pvalid = false)
    (hc : g.phcnt = BitVec.ofNat 32 g.hist.length) : g.Inv where
  inRange := by simp [hv]
  counted := hc
  emitted := by simp [hv]

/-- A generator at its seed meets the invariant if its parameters are in range. -/
theorem Prng.inv_at_seed {g : Prng} (hp : 0 < g.pm ∧ g.pa < g.pm ∧ g.pc < g.pm ∧ g.px0 < g.pm) :
    ({ g.resetGen with pvalid := true } : Prng).Inv where
  inRange := fun _ => ⟨hp.1, hp.2.1, hp.2.2.1, hp.2.2.2, hp.2.2.2⟩
  counted := rfl
  emitted := fun _ _ hv => absurd hv List.not_mem_nil

theorem Prng.Inv.resetGen {g : Prng} (h : g.Inv) : g.resetGen.Inv where
  inRange := fun hv => by
    obtain ⟨hm, ha, hc, h0, -⟩ := h.inRange hv
    exact ⟨hm, ha, hc, h0, h0⟩
  counted := rfl
  emitted := fun _ _ hv => absurd hv List.not_mem_nil

/-- The value that an advance emits is below the modulus, and is counted (10_state.md R39, 40_prng.md R140). -/
theorem Prng.Inv.advance {g : Prng} (h : g.Inv) : g.advance.Inv where
  inRange := fun hv => by
    obtain ⟨hm, ha, hc, h0, -⟩ := h.inRange hv
    exact ⟨hm, ha, hc, h0, lcgStep_lt hm⟩
  counted := by
    rw [Prng.advance_phcnt, Prng.advance_hist, h.counted, List.length_append, List.length_singleton,
      BitVec.ofNat_add]
    rfl
  emitted := fun hv v hm => by
    rcases List.mem_append.1 hm with hold | hnew
    · exact h.emitted hv v hold
    · rw [List.mem_singleton.1 hnew]
      exact lcgStep_lt (h.inRange hv).1

theorem Prng.Inv.advances {g : Prng} (h : g.Inv) (n : Nat) : (Prng.advances n g).2.Inv := by
  induction n generalizing g with
  | zero => exact h
  | succ n ih => exact ih h.advance

theorem Prng.Inv.findPeriod {g : Prng} (h : g.Inv) (n : Nat) : (g.findPeriod n).2.Inv := by
  obtain ⟨k, -, hk⟩ := Prng.periodLoop_advances n 1 [(g.resetGen.px, 0)] g.resetGen
  rw [Prng.findPeriod, hk]
  exact h.resetGen.advances k

theorem Prng.Inv.makeIV {g : Prng} (h : g.Inv) : g.makeIV.2.Inv := h.resetGen.advance.advance

theorem Prng.reset_inv : Prng.reset.Inv := Prng.inv_of_pvalid_eq_false rfl rfl

/-! ### The Hash Engine -/

theorem HashEngine.init_inv : HashEngine.init.Inv := ⟨fun _ => rfl, fun _ => rfl⟩

theorem HashEngine.reset_inv : HashEngine.reset.Inv := ⟨fun _ => rfl, fun _ => rfl⟩

theorem HashEngine.Inv.absorb {h : HashEngine} (hi : h.Inv) (hf : h.hfin = false) (s : List Byte) :
    (h.absorb s).Inv where
  fill := fun _ => HashEngine.absorb_fill (hi.fill hf) s
  finalized := by simp [hf]

/-- Finalization leaves no byte waiting, as the padding fills the last block (41_hash.md R163, R164). -/
theorem HashEngine.Inv.final {h : HashEngine} (hi : h.Inv) (hf : h.hfin = false) : h.final.Inv where
  fill := by simp
  finalized := fun _ => by
    obtain ⟨n, hn⟩ := fill_add_padBytes (hi.fill hf)
    exact (HashEngine.absorb_blocks n (hi.fill hf) hn).2

theorem hashOf_inv (s : List Byte) : (hashOf s).Inv :=
  (HashEngine.init_inv.absorb rfl s).final (HashEngine.absorb_hfin _ s)

/-! ### The key schedule -/

theorem KeySchedule.reset_inv : KeySchedule.reset.Inv := ⟨by decide, fun _ => ⟨rfl, rfl, rfl⟩⟩

/-- The schedule that C_SETKEY builds (43_cipher.md R200). -/
theorem KeySchedule.setkey_inv (key : List Byte) {b : Byte} (r : Byte) (hb : 1 ≤ b.toNat)
    (hb' : b.toNat ≤ 16) :
    ({ s := keySchedule key b.toNat r.toNat, cr := r, cb := b, ksvalid := true } :
      KeySchedule).Inv where
  valid := fun _ => ⟨length_keySchedule _ _ _, hb, hb'⟩
  absent := fun h => Bool.noConfusion h

/-! ### The length of a decrypted payload -/

/-- The plaintext of a payload is shorter than the payload by its IV block and at least one byte of padding, at
most a block of it (44_cbc.md R227). -/
theorem length_of_cbcDecrypt {k : KeySchedule} {y p : List Byte} (h16 : 16 ≤ y.length)
    (h8 : y.length % 8 = 0) (h : cbcDecrypt k y = some p) :
    y.length - 16 ≤ p.length ∧ p.length ≤ y.length - 9 := by
  obtain ⟨h1, h2, rfl⟩ := unpad8_eq_some h
  rw [List.length_take, length_cbcDecBlocks _ _ _ _ (KeySchedule.length_decrypt _ _)
    (by rw [List.length_drop]; omega)]
  omega

/-! ### The whole state -/

/-- The invariant but for the record of errors: BUF and the three engines. -/
structure State.PartsInv (s : State) : Prop where
  memory : s.buf.wf
  prng : s.prng.Inv
  hash : s.hash.Inv
  schedule : s.ks.Inv

theorem State.Inv.parts {s : State} (h : s.Inv) : s.PartsInv :=
  ⟨h.memory, h.prng, h.hash, h.schedule⟩

/-- The end of a successful command records that there is no error (60_exceptions.md R255). -/
theorem State.PartsInv.finish {s : State} (h : s.PartsInv) : s.finish.Inv where
  memory := h.memory
  error := by simp
  code := by simp
  stuck := by simp
  prng := h.prng
  hash := h.hash
  schedule := h.schedule

/-- The end of a failed command records the error (60_exceptions.md R256). -/
theorem State.PartsInv.raise {s : State} (h : s.PartsInv) (e : ErrCode) : (s.raise e).Inv where
  memory := h.memory
  error := ⟨fun _ => e.code_ne_zero, fun _ => rfl⟩
  code := e.code_range.2
  stuck := fun _ => rfl
  prng := h.prng
  hash := h.hash
  schedule := h.schedule

/-- The reset state has no error, no valid generator, no waiting byte and no schedule (10_state.md R60). -/
theorem State.reset_inv : State.reset.Inv where
  memory := State.reset_buf_wf
  error := by decide
  code := by decide
  stuck := by decide
  prng := Prng.reset_inv
  hash := HashEngine.reset_inv
  schedule := KeySchedule.reset_inv

/-- A reset state meets the invariant whatever canonical BUF it keeps. -/
theorem State.softReset_partsInv {s : State} (h : s.PartsInv) : s.softReset.PartsInv :=
  ⟨h.memory, Prng.reset_inv, HashEngine.reset_inv, KeySchedule.reset_inv⟩

/-- Hardware reset meets the invariant as the reset state does: they differ in `resets` and `port` only. -/
theorem State.hardwareReset_inv (s : State) : s.hardwareReset.Inv :=
  let h := State.reset_inv
  ⟨h.memory, h.error, h.code, h.stuck, h.prng, h.hash, h.schedule⟩

/-- Storing a string that fits in BUF keeps the parts (10_state.md R20, log 4). -/
theorem State.PartsInv.memWrite {s : State} (h : s.PartsInv) {a : Nat} {bs : List Byte}
    (hr : a + bs.length ≤ 65536) : (s.memWrite a bs).PartsInv :=
  ⟨Memory.wf_putAll h.memory hr, h.prng, h.hash, h.schedule⟩

/-- The string that P_SEQ stores has four bytes for each value. -/
theorem length_flatMap_le32 (xs : List Word) : (xs.flatMap le32).length = 4 * xs.length := by
  induction xs with
  | nil => rfl
  | cons x xs ih => rw [List.flatMap_cons, List.length_append, ih]; simp; omega

/-- A command whose checks hold keeps the parts. -/
theorem effectOf_partsInv {i : Instr} {s : State} (hc : checksHold i s) (h : s.PartsInv) :
    (effectOf i s).PartsInv := by
  obtain ⟨hm, hp, hh, hk⟩ := h
  cases i with
  | nop => exact ⟨hm, hp, hh, hk⟩
  | clrerr => exact ⟨hm, hp, hh, hk⟩
  | sreset => exact State.softReset_partsInv ⟨hm, hp, hh, hk⟩
  | pInit => exact ⟨hm, Prng.inv_at_seed hc, hh, hk⟩
  | pReset => exact ⟨hm, hp.resetGen, hh, hk⟩
  | pNext => exact ⟨hm, hp.advance, hh, hk⟩
  | pSeq =>
    obtain ⟨-, -, hr⟩ := hc
    refine ⟨Memory.wf_putAll hm ?_, hp.resetGen.advances _, hh, hk⟩
    rw [length_flatMap_le32, (Prng.advances_spec _ _).1]
    exact hr
  | pPeriod => exact ⟨hm, hp.findPeriod _, hh, hk⟩
  | hInit => exact ⟨hm, hp, HashEngine.init_inv, hk⟩
  | hUpdate => exact ⟨hm, hp, hh.absorb hc.1 _, hk⟩
  | hFinal => exact ⟨hm, hp, hh.final hc, hk⟩
  | hDigest => exact ⟨hm, hp, hashOf_inv _, hk⟩
  | hVerify => exact ⟨hm, hp, hashOf_inv _, hk⟩
  | kDerive n => exact ⟨hm, hp, hashOf_inv _, hk⟩
  | cSetkey w b r =>
    obtain ⟨-, hb, hb'⟩ := hc
    exact ⟨hm, hp, hh, KeySchedule.setkey_inv _ r hb hb'⟩
  | cEcbEnc =>
    obtain ⟨-, -, hr⟩ := hc
    exact State.PartsInv.memWrite ⟨hm, hp, hh, hk⟩ hr
  | cEcbDec =>
    obtain ⟨-, -, hr⟩ := hc
    exact State.PartsInv.memWrite ⟨hm, hp, hh, hk⟩ hr
  | cCbcEnc =>
    obtain ⟨-, -, -, hr⟩ := hc
    refine ⟨Memory.wf_putAll hm ?_, hp.makeIV, hh, hk⟩
    rw [length_cbcEncrypt, State.length_memRead]
    exact hr
  | cCbcDec =>
    obtain ⟨-, h16, h8, -, hr, hne⟩ := hc
    obtain ⟨p, hpt⟩ := Option.ne_none_iff_exists'.1 hne
    have hlen := length_of_cbcDecrypt (by rwa [State.length_memRead])
      (by rwa [State.length_memRead]) hpt
    rw [State.length_memRead] at hlen
    refine ⟨Memory.wf_putAll hm ?_, hp, hh, hk⟩
    rw [show s.cbcPlaintext = some p from hpt, Option.getD_some]
    exact Nat.le_trans (Nat.add_le_add_left (hlen.2.trans (by omega)) _) hr

/-- An issued command word keeps the invariant, whatever it is. -/
theorem State.Inv.issue {s t : State} {cw : Word} (h : s.Inv) (hs : issue cw s = .next t) : t.Inv := by
  rcases issue_cases cw s with ⟨e, he⟩ | ⟨i, hc, he⟩
  · obtain rfl := Host.Outcome.next.inj (he.symm.trans hs)
    exact h.parts.raise e
  · obtain rfl := Host.Outcome.next.inj (he.symm.trans hs)
    exact (effectOf_partsInv hc h.parts).finish

/-- The invariant speaks of registers, engines and BUF, not of the host port. -/
theorem State.Inv.respond {s : State} (h : s.Inv) (r : Response) : (s.respond r).Inv :=
  ⟨h.memory, h.error, h.code, h.stuck, h.prng, h.hash, h.schedule⟩

theorem State.Inv.take {s : State} (h : s.Inv) (rest : List Input) : { s with port := rest }.Inv :=
  ⟨h.memory, h.error, h.code, h.stuck, h.prng, h.hash, h.schedule⟩

/-- A register write keeps the invariant: a new parameter clears PVALID (10_state.md R34). -/
theorem State.Inv.writeReg {s : State} (h : s.Inv) (r : Reg) (v : Word) : (s.writeReg r v).Inv := by
  have hg : (s.writeReg r v).prng.Inv := by
    cases r with
    | pm | pa | pc | px0 => exact Prng.inv_of_pvalid_eq_false rfl h.prng.counted
    | _ => exact h.prng
  exact {
    memory := by rw [State.writeReg_buf]; exact h.memory
    error := by rw [State.writeReg_err, State.writeReg_errcode]; exact h.error
    code := by rw [State.writeReg_errcode]; exact h.code
    stuck := by rw [State.writeReg_err, State.writeReg_sticky]; exact h.stuck
    prng := hg
    hash := by rw [State.writeReg_hash]; exact h.hash
    schedule := by rw [State.writeReg_ks]; exact h.schedule }

/-- A transaction that issues no command keeps the invariant, as its store fits in BUF. -/
theorem State.Inv.transact {s : State} (h : s.Inv) {op : PortOp} (hf : op.fits) :
    (s.transact op).Inv := by
  cases op with
  | regRead r => exact h.respond _
  | regWrite r v => exact (h.writeReg r v).respond _
  | bufRead8 k => exact h.respond _
  | bufRead32 k => exact h.respond _
  | bufWrite8 k v =>
    exact { h with memory := Memory.wf_put v h.memory hf }
  | bufWrite32 k v =>
    exact { h with memory := Memory.wf_putAll h.memory hf }

/-- An access keeps the invariant. -/
theorem State.Inv.access {s t : State} {x : Txn} (h : s.Inv) (hs : access x s = .next t) : t.Inv := by
  rcases access_cases hs with ⟨-, rfl⟩ | ⟨cw, -, hi⟩ | ⟨op, hr, -, rfl⟩
  · exact h.respond _
  · exact (h.respond _).issue hi
  · exact h.transact (route_fits hr)

/-- Settles O19, by what a step can do. -/
theorem stepKeepsTheInvariant : Obligations.StepKeepsTheInvariant := by
  intro s t h hs
  rcases step_cases hs with ⟨-, rfl⟩ | ⟨rest, -, rfl⟩ | ⟨x, rest, -, ha⟩
  · exact h
  · exact State.hardwareReset_inv _
  · exact (h.take rest).access ha

/-- Settles O20. -/
theorem resetMeetsTheInvariant : Obligations.ResetMeetsTheInvariant := State.reset_inv

end Sys2Proof.Machine
end

section
/-! PROOFS, part 3: the registers behind the host port. -/

namespace Sys2Proof.Machine

/-! ### Register reads and writes -/

@[simp] theorem State.readReg_respond (s : State) (r : Response) (q : Reg) :
    (s.respond r).readReg q = s.readReg q := by cases q <;> rfl

/-- A register's value does not depend on the inputs that wait. -/
theorem State.readReg_take (s : State) (rest : List Input) (q : Reg) :
    State.readReg { s with port := rest } q = s.readReg q := by cases q <;> rfl

/-- A plain register holds what is written to it, and no other register changes (20_memory.md R81). -/
theorem State.readReg_writeReg_of_plain {r : Reg} (hr : r ∈ plainRegs) (s : State) (v : Word) (q : Reg) :
    (s.writeReg r v).readReg q = if q = r then v else s.readReg q := by
  simp only [plainRegs, List.mem_cons, List.not_mem_nil, or_false] at hr
  rcases hr with rfl | rfl | rfl | rfl | rfl | rfl | rfl | rfl | rfl | rfl | rfl <;>
    cases q <;> rfl

/-- The generator has no plain register. -/
theorem State.writeReg_prng_of_plain {r : Reg} (hr : r ∈ plainRegs) (s : State) (v : Word) :
    (s.writeReg r v).prng = s.prng := by
  cases r with
  | pm | pa | pc | px0 => exact absurd hr (by decide)
  | _ => rfl

/-- A parameter register holds what is written to it, and no other register but STATUS, which shows PVALID,
changes (10_state.md R34). -/
theorem State.readReg_writeReg_of_param {r : Reg} (hr : r ∈ paramRegs) (s : State) (v : Word) {q : Reg}
    (hq : q ≠ .status) : (s.writeReg r v).readReg q = if q = r then v else s.readReg q := by
  simp only [paramRegs, List.mem_cons, List.not_mem_nil, or_false] at hr
  cases q with
  | status => exact absurd rfl hq
  | _ => rcases hr with rfl | rfl | rfl | rfl <;> rfl

/-- What a write to a parameter register leaves of the state: all but the generator, and in it HIST, while
PVALID is cleared (10_state.md R34). -/
theorem State.writeReg_of_param {r : Reg} (hr : r ∈ paramRegs) (s : State) (v : Word) :
    (s.writeReg r v).prng.pvalid = false ∧ (s.writeReg r v).prng.hist = s.prng.hist ∧
      s.writeReg r v = { s with prng := (s.writeReg r v).prng } := by
  simp only [paramRegs, List.mem_cons, List.not_mem_nil, or_false] at hr
  rcases hr with rfl | rfl | rfl | rfl <;> exact ⟨rfl, rfl, rfl⟩

/-- Settles O9: each row of the table is a register's offset, name and value. -/
theorem registerReadHasNoSideEffect : Obligations.RegisterReadHasNoSideEffect := by
  refine ⟨fun s row hrow => ?_, fun s r rest hp => step_read32_reg hp⟩
  have hrow : row ∈ allRegs.map (fun r => (r.offset, r, s.readReg r)) := hrow
  obtain ⟨r, -, rfl⟩ := List.mem_map.1 hrow
  exact ⟨rfl, rfl, fun rest hp => step_read32_reg hp⟩

/-- Settles O10. -/
theorem plainRegisterWriteStores : Obligations.PlainRegisterWriteStores := by
  intro s r v rest hr hp
  have hne : r ≠ .cmd := by rintro rfl; exact absurd hr (by decide)
  refine ⟨_, step_write32_reg hne hp, fun q => ?_, ?_, ?_, ?_, ?_, rfl, ?_, fun a => ?_⟩
  · rw [State.readReg_respond, State.readReg_writeReg_of_plain hr, State.readReg_take]
  · rw [State.respond_prng, State.writeReg_prng_of_plain hr]
  · rw [State.respond_hash, State.writeReg_hash]
  · rw [State.respond_ks, State.writeReg_ks]
  · rw [State.respond_port, State.writeReg_port]
  · rw [State.respond_resets, State.writeReg_resets]
  · exact State.readByte_congr (State.writeReg_buf _ _ _) (State.writeReg_resets _ _ _) a

/-- Settles O11. -/
theorem parameterWriteInvalidatesTheGenerator : Obligations.ParameterWriteInvalidatesTheGenerator := by
  intro s r v rest hr hp
  have hne : r ≠ .cmd := by rintro rfl; exact absurd hr (by decide)
  obtain ⟨hv, hh, hframe⟩ := State.writeReg_of_param hr { s with port := rest } v
  refine ⟨_, step_write32_reg hne hp, hv, fun q hq => ?_, hh, congrArg (·.respond .done) hframe⟩
  rw [State.readReg_respond, State.readReg_writeReg_of_param hr _ _ hq, State.readReg_take]

/-! ### STATUS -/

/-- The binary digits of a sum of five flags with the weights 1, 2, 4, 8, 16. -/
theorem testBit_flags : ∀ a b c d e : Bool,
    let n := a.toNat + 2 * b.toNat + 4 * c.toNat + 8 * d.toNat + 16 * e.toNat
    n.testBit 0 = a ∧ n.testBit 1 = b ∧ n.testBit 2 = c ∧ n.testBit 3 = d ∧ n.testBit 4 = e ∧
      n < 2 ^ 5 := by decide

/-- Settles O8. -/
theorem statusShowsTheFlags : Obligations.StatusShowsTheFlags := by
  intro s
  obtain ⟨h0, h1, h2, h3, h4, hlt⟩ :=
    testBit_flags s.err s.sticky s.prng.pvalid s.ks.ksvalid s.hash.hfin
  simp only [State.readReg, State.status, BitVec.getLsbD_ofNat, h0, h1, h2, h3, h4]
  refine ⟨rfl, rfl, rfl, rfl, rfl, fun i hi => ?_⟩
  rw [Nat.testBit_lt_two_pow (hlt.trans_le (Nat.pow_le_pow_right (by decide) hi)), Bool.and_false]

/-! ### Reset -/

/-- The registers of the reset state hold the reset column of the table (10_state.md R21, R60). -/
theorem State.readReg_reset (r : Reg) : State.reset.readReg r = r.resetValue := by
  cases r <;> decide

/-- Soft reset leaves every register at its reset value (45_system.md R242). -/
theorem State.readReg_softReset (s : State) (r : Reg) : s.softReset.readReg r = r.resetValue := by
  rw [← State.readReg_reset r]; cases r <;> rfl

/-- Hardware reset leaves every register at its reset value (70_reset_and_hazards.md R280). -/
theorem State.readReg_hardwareReset (s : State) (r : Reg) :
    s.hardwareReset.readReg r = r.resetValue := by
  rw [← State.readReg_reset r]; cases r <;> rfl

/-- Settles O7. -/
theorem hardwareResetGivesTheResetState : Obligations.HardwareResetGivesTheResetState :=
  fun _ _ hp =>
    ⟨_, step_hwReset hp, rfl, State.readReg_hardwareReset _, rfl, rfl, fun _ => rfl⟩

/-- SRESET is soft reset: it has no check, and a reset record of errors is that of a success. -/
theorem exec_sreset (s : State) : exec .sreset s = .next s.softReset := rfl

/-- Settles O31. -/
theorem sresetGivesTheResetStateAndKeepsBuf : Obligations.SresetGivesTheResetStateAndKeepsBuf :=
  fun s => ⟨_, exec_sreset s, State.readReg_softReset s, rfl, rfl, State.readByte_softReset s,
    rfl, rfl, rfl⟩

/-! ### Which accesses are answered, and how -/

/-- Settles O6. -/
theorem stepRunsTheIssuedCommand : Obligations.StepRunsTheIssuedCommand := by
  intro s cw i rest hp hd
  rw [step_txn hp, access_cmd (route_cmd cw), issue_ok hd]
  rfl

/-- No command changes the host port's fields or counts a hardware reset (logs 1, 3, 5). -/
theorem effectOf_port (i : Instr) (s : State) :
    (effectOf i s).port = s.port ∧ (effectOf i s).resp = s.resp ∧
      (effectOf i s).resets = s.resets := by
  cases i <;> exact ⟨rfl, rfl, rfl⟩

/-- A command word keeps the response that its write has recorded. -/
theorem issue_resp (cw : Word) (s : State) : ∃ t, issue cw s = .next t ∧ t.resp = s.resp := by
  rcases issue_cases cw s with ⟨e, he⟩ | ⟨i, -, he⟩
  · exact ⟨_, he, rfl⟩
  · exact ⟨_, he, (effectOf_port i s).2.1⟩

/-- An access that address decoding accepts is answered, and not with HostErr (20_memory.md R80). -/
theorem access_answers {x : Txn} {op : PortOp} (h : x.route = some op) (s : State) :
    ∃ t, access x s = .next t ∧ ∃ r, t.resp = some r ∧ r ≠ .hostErr := by
  by_cases hc : ∃ cw, op = .regWrite .cmd cw
  · obtain ⟨cw, rfl⟩ := hc
    obtain ⟨t, ht, hr⟩ := issue_resp cw (s.respond .done)
    exact ⟨t, (access_cmd h).trans ht, .done, hr, by simp⟩
  · refine ⟨_, access_transact h fun cw e => hc ⟨cw, e⟩, ?_⟩
    cases op <;> exact ⟨_, rfl, by simp⟩

/-- Settles O13. -/
theorem hostErrExactlyWhenNotAccepted : Obligations.HostErrExactlyWhenNotAccepted := by
  intro s x rest hp
  rw [step_txn hp, ← route_isSome_iff]
  refine ⟨fun h => ?_, fun h => ?_⟩
  · rw [access_hostErr (Option.not_isSome_iff_eq_none.1 h)]; rfl
  · obtain ⟨op, hop⟩ := Option.isSome_iff_exists.1 h
    exact access_answers hop _

/-- A transaction that issues no command keeps the record of errors. -/
theorem State.transact_error (s : State) (op : PortOp) :
    (s.transact op).errcode = s.errcode ∧ (s.transact op).err = s.err ∧
      (s.transact op).sticky = s.sticky := by
  cases op with
  | regWrite r v =>
    exact ⟨State.writeReg_errcode s r v, State.writeReg_err s r v, State.writeReg_sticky s r v⟩
  | _ => exact ⟨rfl, rfl, rfl⟩

/-- Settles O16. -/
theorem otherAccessesKeepTheErrorRecord : Obligations.OtherAccessesKeepTheErrorRecord := by
  intro s t x rest hp hx hs
  rw [step_txn hp] at hs
  rcases access_cases hs with ⟨-, rfl⟩ | ⟨cw, hr, -⟩ | ⟨op, -, -, rfl⟩
  · exact ⟨rfl, rfl, rfl⟩
  · exact absurd (route_eq_cmd_iff.1 hr) (hx cw)
  · exact State.transact_error _ op

end Sys2Proof.Machine
end

section
/-! PROOFS, part 4: what the commands leave unchanged, and that none depends on the record of errors. -/

namespace Sys2Proof.Machine

/-! ### The generator's parameters -/

/-- Two generators have the same parameters and the same PVALID. -/
structure Prng.SameParams (g h : Prng) : Prop where
  pm : h.pm = g.pm
  pa : h.pa = g.pa
  pc : h.pc = g.pc
  px0 : h.px0 = g.px0
  pvalid : h.pvalid = g.pvalid

/-- The advances of P_SEQ keep the parameters. -/
theorem Prng.sameParams_advances (n : Nat) (g : Prng) : g.SameParams (Prng.advances n g).2 := by
  rw [(Prng.advances_spec n g).2]
  exact ⟨rfl, rfl, rfl, rfl, rfl⟩

theorem Prng.sameParams_advances_resetGen (n : Nat) (g : Prng) :
    g.SameParams (Prng.advances n g.resetGen).2 := by
  obtain ⟨h1, h2, h3, h4, h5⟩ := Prng.sameParams_advances n g.resetGen
  exact ⟨h1, h2, h3, h4, h5⟩

/-- The period search keeps the parameters, as it only advances. -/
theorem Prng.sameParams_findPeriod (n : Nat) (g : Prng) : g.SameParams (g.findPeriod n).2 := by
  obtain ⟨k, -, hk⟩ := Prng.periodLoop_advances n 1 [(g.resetGen.px, 0)] g.resetGen
  rw [Prng.findPeriod, hk]
  exact Prng.sameParams_advances_resetGen k g

/-! ### What each command's effect leaves -/

/-- The operands, the expected digest and the parameters are changed by no command but SRESET (10_state.md
R23, R34, R45). -/
theorem effectOf_operands {i : Instr} (hi : i ≠ .sreset) (s : State) :
    (effectOf i s).arg0 = s.arg0 ∧ (effectOf i s).arg1 = s.arg1 ∧ (effectOf i s).arg2 = s.arg2 ∧
      (effectOf i s).hexp0 = s.hexp0 ∧ (effectOf i s).hexp1 = s.hexp1 ∧
      (effectOf i s).hexp2 = s.hexp2 ∧ (effectOf i s).hexp3 = s.hexp3 := by
  cases i with
  | sreset => exact absurd rfl hi
  | _ => exact ⟨rfl, rfl, rfl, rfl, rfl, rfl, rfl⟩

/-- No command but SRESET and P_INIT changes the parameters or PVALID (10_state.md R34). -/
theorem effectOf_sameParams {i : Instr} (hi : i ≠ .sreset) (hp : i ≠ .pInit) (s : State) :
    s.prng.SameParams (effectOf i s).prng := by
  cases i with
  | sreset => exact absurd rfl hi
  | pInit => exact absurd rfl hp
  | pSeq => exact Prng.sameParams_advances_resetGen _ _
  | pPeriod => exact Prng.sameParams_findPeriod _ _
  | _ => exact ⟨rfl, rfl, rfl, rfl, rfl⟩

/-- P_INIT too keeps the parameters. -/
theorem effectOf_params {i : Instr} (hi : i ≠ .sreset) (s : State) :
    (effectOf i s).prng.pm = s.prng.pm ∧ (effectOf i s).prng.pa = s.prng.pa ∧
      (effectOf i s).prng.pc = s.prng.pc ∧ (effectOf i s).prng.px0 = s.prng.px0 := by
  by_cases hp : i = .pInit
  · subst hp; exact ⟨rfl, rfl, rfl, rfl⟩
  · obtain ⟨h1, h2, h3, h4, -⟩ := effectOf_sameParams hi hp s
    exact ⟨h1, h2, h3, h4⟩

/-- RES1 is P_PERIOD's (10_state.md R24). -/
theorem eq_pPeriod_of_res1 {i : Instr} {s : State} (hi : i ≠ .sreset)
    (h : (effectOf i s).res1 ≠ s.res1) : i = .pPeriod := by
  cases i with
  | sreset => exact absurd rfl hi
  | pPeriod => rfl
  | _ => exact absurd rfl h

/-- RES0 is the result of six commands (10_state.md R24). -/
theorem returns_of_res0 {i : Instr} {s : State} (hi : i ≠ .sreset)
    (h : (effectOf i s).res0 ≠ s.res0) :
    i = .pNext ∨ i = .pPeriod ∨ i = .hVerify ∨ (∃ n, i = .kDerive n) ∨ i = .cCbcEnc ∨
      i = .cCbcDec := by
  cases i with
  | sreset => exact absurd rfl hi
  | pNext | pPeriod | hVerify | kDerive | cCbcEnc | cCbcDec => simp
  | _ => exact absurd rfl h

/-- KEY is written by K_DERIVE (10_state.md R46). -/
theorem eq_kDerive_of_keyBytes {i : Instr} {s : State} (hi : i ≠ .sreset)
    (h : (effectOf i s).keyBytes ≠ s.keyBytes) : ∃ n, i = .kDerive n := by
  cases i with
  | sreset => exact absurd rfl hi
  | kDerive n => exact ⟨n, rfl⟩
  | _ => exact absurd rfl h

/-- The schedule is built by C_SETKEY (10_state.md R48, R50). -/
theorem eq_cSetkey_of_ks {i : Instr} {s : State} (hi : i ≠ .sreset)
    (h : (effectOf i s).ks ≠ s.ks) : ∃ w b r, i = .cSetkey w b r := by
  cases i with
  | sreset => exact absurd rfl hi
  | cSetkey w b r => exact ⟨w, b, r, rfl⟩
  | _ => exact absurd rfl h

/-- The Hash Engine is used by its own commands and K_DERIVE (10_state.md R40). -/
theorem hashes_of_hash {i : Instr} {s : State} (hi : i ≠ .sreset)
    (h : (effectOf i s).hash ≠ s.hash) :
    i = .hInit ∨ i = .hUpdate ∨ i = .hFinal ∨ i = .hDigest ∨ i = .hVerify ∨ ∃ n, i = .kDerive n := by
  cases i with
  | sreset => exact absurd rfl hi
  | hInit | hUpdate | hFinal | hDigest | hVerify | kDerive => simp
  | _ => exact absurd rfl h

/-- The generator is used by its own commands and C_CBC_ENC (10_state.md R35, R36). -/
theorem generates_of_prng {i : Instr} {s : State} (hi : i ≠ .sreset)
    (h : (effectOf i s).prng ≠ s.prng) :
    i = .pInit ∨ i = .pReset ∨ i = .pNext ∨ i = .pSeq ∨ i = .pPeriod ∨ i = .cCbcEnc := by
  cases i with
  | sreset => exact absurd rfl hi
  | pInit | pReset | pNext | pSeq | pPeriod | cCbcEnc => simp
  | _ => exact absurd rfl h

/-- PVALID is set by P_INIT (10_state.md R34). -/
theorem eq_pInit_of_pvalid {i : Instr} {s : State} (hi : i ≠ .sreset)
    (h : (effectOf i s).prng.pvalid ≠ s.prng.pvalid) : i = .pInit :=
  by_contra fun hp => h (effectOf_sameParams hi hp s).pvalid

/-- Settles O28: a failed command changes none of these, and the effect of a command only its own. -/
theorem stateIsChangedOnlyByItsOwnCommands : Obligations.StateIsChangedOnlyByItsOwnCommands := by
  intro i s t h hi
  rcases exec_cases i s with ⟨e, -, he⟩ | ⟨-, he⟩
  · obtain rfl := Host.Outcome.next.inj (he.symm.trans h)
    exact ⟨rfl, rfl, rfl, rfl, rfl, rfl, rfl, rfl, rfl, rfl, rfl, absurd rfl, absurd rfl, absurd rfl,
      absurd rfl, absurd rfl, absurd rfl, absurd rfl, rfl, rfl, rfl⟩
  · obtain rfl := Host.Outcome.next.inj (he.symm.trans h)
    obtain ⟨a0, a1, a2, e0, e1, e2, e3⟩ := effectOf_operands hi s
    obtain ⟨hm, ha, hc, h0⟩ := effectOf_params hi s
    exact ⟨a0, a1, a2, e0, e1, e2, e3, hm, ha, hc, h0, eq_pPeriod_of_res1 hi, returns_of_res0 hi,
      eq_kDerive_of_keyBytes hi, eq_cSetkey_of_ks hi, hashes_of_hash hi, generates_of_prng hi,
      eq_pInit_of_pvalid hi, effectOf_port i s⟩

/-! ### The record of errors -/

/-- The state with another record of errors. -/
def State.setError (s : State) (code : Byte) (err sticky : Bool) : State :=
  { s with errcode := code, err := err, sticky := sticky }

/-- No check looks at the record of errors (10_state.md R31). -/
theorem checksOf_setError (i : Instr) (s : State) (code : Byte) (err sticky : Bool) :
    checksOf i (s.setError code err sticky) = checksOf i s := by
  cases i <;> rfl

/-- A successful command ends alike whatever error was recorded before, but for STICKY. -/
theorem finish_effectOf_setError (i : Instr) (s : State) (code : Byte) (err sticky : Bool) :
    { (effectOf i (s.setError code err sticky)).finish with sticky := (effectOf i s).sticky } =
      (effectOf i s).finish := by
  cases i <;> rfl

/-- Settles O25: the checks are the same, and each of the two ends overwrites ERRCODE and ERR. -/
theorem errorRecordDoesNotInfluenceCommands : Obligations.ErrorRecordDoesNotInfluenceCommands := by
  intro i s t code err sticky h
  show ∃ t', exec i (s.setError code err sticky) = .next t' ∧ _
  rw [exec_eq_command] at h ⊢
  unfold command at h ⊢
  rw [checksOf_setError]
  cases hc : firstFailure (checksOf i s) with
  | some e =>
    rw [hc] at h
    obtain rfl := Host.Outcome.next.inj h
    exact ⟨_, rfl, rfl⟩
  | none =>
    rw [hc] at h
    obtain rfl := Host.Outcome.next.inj h
    exact ⟨_, rfl, finish_effectOf_setError i s code err sticky⟩

end Sys2Proof.Machine
end

section
/-! PROOFS, part 5: the lists of values that P_SEQ writes and the cycle that P_PERIOD finds. -/

namespace Sys2Proof.Machine

/-! ### P_SEQ -/

/-- A part of a string, read from where the string was written (20_memory.md R70). -/
theorem State.memRead_slice_of_buf {s t : State} {a o n : Nat} {bs : List Byte}
    (h1 : t.buf = s.buf.putAll a bs) (h2 : t.resets = s.resets) (h : o + n ≤ bs.length) :
    t.memRead (a + o) n = (bs.drop o).take n := by
  have hall : t.memRead a (o + n + (bs.length - (o + n))) = bs :=
    State.memRead_of_buf h1 h2 (by omega)
  rw [State.memRead_add, State.memRead_add] at hall
  rw [← hall, List.append_assoc, List.drop_left' (State.length_memRead t a o),
    List.take_left' (State.length_memRead t (a + o) n)]

/-- Word `k` of a list of words, serialized. -/
theorem take_drop_flatMap_le32 {xs : List Word} {k : Nat} (h : k < xs.length) :
    ((xs.flatMap le32).drop (4 * k)).take 4 = le32 xs[k] := by
  induction xs generalizing k with
  | nil => simp at h
  | cons x xs ih =>
    rw [List.flatMap_cons]
    cases k with
    | zero => exact List.take_left' (length_le32 x)
    | succ k =>
      rw [show 4 * (k + 1) = (le32 x).length + 4 * k by rw [length_le32]; omega,
        List.drop_length_add_append, ih (by simpa using h), List.getElem_cons_succ]

/-- The generator that P_SEQ, P_PERIOD and C_CBC_ENC leave after `n` values from the seed (40_prng.md R139). -/
def Prng.atOrbit (g : Prng) (n : Nat) : Prng :=
  { g with px := BitVec.ofNat 32 (g.orbit n), phcnt := BitVec.ofNat 32 n,
           hist := (List.range n).map (fun k => BitVec.ofNat 32 (g.orbit (k + 1))) }

theorem Prng.atOrbit_toNat (g : Prng) (n : Word) :
    g.atOrbit n.toNat = { g with
      px := BitVec.ofNat 32 (g.orbit n.toNat), phcnt := n,
      hist := (List.range n.toNat).map (fun k => BitVec.ofNat 32 (g.orbit (k + 1))) } := by
  rw [Prng.atOrbit, BitVec.ofNat_toNat, BitVec.setWidth_eq]

theorem Prng.advances_resetGen_snd {g : Prng} (hm : 0 < g.pm.toNat) (n : Nat) :
    (Prng.advances n g.resetGen).2 = g.atOrbit n :=
  congrArg Prod.snd (Prng.advances_resetGen hm n)

/-- Settles O35. -/
theorem pSeqWritesTheSequence : Obligations.PSeqWritesTheSequence := by
  intro s hn hv hm hr
  have hc : checksHold .pSeq s := ⟨hn, hv, hr⟩
  have hvals := congrArg Prod.fst (Prng.advances_resetGen hm s.arg0.toNat)
  have hgen := (Prng.advances_resetGen_snd hm s.arg0.toNat).trans (Prng.atOrbit_toNat _ s.arg0)
  have hcount := (Prng.advances_spec s.arg0.toNat s.prng.resetGen).1
  have hlen := (length_flatMap_le32 _).trans (congrArg (4 * ·) hcount)
  have hbuf : (effectOf .pSeq s).finish.buf = s.buf.putAll s.arg2.toNat
      ((Prng.advances s.arg0.toNat s.prng.resetGen).1.flatMap le32) := rfl
  refine ⟨_, exec_of_checksHold hc, fun k hk => ?_, fun a ha => ?_, ?_⟩
  · rw [State.memRead_slice_of_buf hbuf rfl (by omega),
      take_drop_flatMap_le32 (by omega), wordOf_le32]
    simp [hvals]
  · exact State.readByte_of_buf hbuf rfl (by rw [hlen]; exact ha)
  · exact congrArg (fun g => { (effectOf .pSeq s).finish with prng := g }) hgen

/-! ### P_PERIOD -/

/-- The orbit of a generator has a tail of `mu` values and a cycle of `lam` (40_prng.md R139). -/
structure Prng.HasCycle (g : Prng) (mu lam : Nat) : Prop where
  pos : 1 ≤ lam
  repeats : g.orbit (mu + lam) = g.orbit mu
  distinct : ∀ i j, i < j → j < mu + lam → g.orbit i ≠ g.orbit j

/-- The first repeat of a sequence of numbers below `m` comes within its first `m + 1`, by the pigeonhole
principle. -/
theorem exists_first_repeat {f : Nat → Nat} {m : Nat} (hf : ∀ k, f k < m) :
    ∃ i j, i < j ∧ j ≤ m ∧ f i = f j ∧ ∀ a b, a < b → b < j → f a ≠ f b := by
  have hex : ∃ j, j ≤ m ∧ ∃ i < j, f i = f j := by
    obtain ⟨a, ha, b, hb, hab, he⟩ :=
      Finset.exists_ne_map_eq_of_card_lt_of_maps_to (s := Finset.range (m + 1))
        (t := Finset.range m) (f := f) (by simp) (fun k _ => by simpa using hf k)
    rw [Finset.mem_range] at ha hb
    rcases hab.lt_or_gt with hlt | hgt
    · exact ⟨b, by omega, a, hlt, he⟩
    · exact ⟨a, by omega, b, hgt, he.symm⟩
  obtain ⟨hm, i, hij, he⟩ := Nat.find_spec hex
  exact ⟨i, Nat.find hex, hij, hm, he, fun a b hab hb hab' =>
    Nat.find_min hex hb ⟨by omega, a, hab, hab'⟩⟩

/-- A generator in range has a tail and a cycle, of at most PM values together. -/
theorem Prng.exists_hasCycle {g : Prng} (hm : 0 < g.pm.toNat) (h0 : g.px0.toNat < g.pm.toNat) :
    ∃ mu lam, g.HasCycle mu lam ∧ mu + lam ≤ g.pm.toNat := by
  obtain ⟨i, j, hij, hj, he, hd⟩ := exists_first_repeat (Prng.orbit_lt hm h0)
  have hadd : i + (j - i) = j := by omega
  exact ⟨i, j - i, ⟨by omega, by rw [hadd, he], by rwa [hadd]⟩, by rwa [hadd]⟩

/-- `x_k` as the register PX holds it. -/
def Prng.orbitWord (g : Prng) (k : Nat) : Word := BitVec.ofNat 32 (g.orbit k)

/-- Values in range are told apart by their words. -/
theorem Prng.orbitWord_inj {g : Prng} (hm : 0 < g.pm.toNat) (h0 : g.px0.toNat < g.pm.toNat) {i j : Nat} :
    g.orbitWord i = g.orbitWord j ↔ g.orbit i = g.orbit j := by
  refine ⟨fun h => ?_, fun h => by rw [Prng.orbitWord, h]; rfl⟩
  have hi := Prng.orbit_lt hm h0 i
  have hj := Prng.orbit_lt hm h0 j
  have hlt := g.pm.isLt
  have hn := congrArg BitVec.toNat h
  simp only [Prng.orbitWord, BitVec.toNat_ofNat] at hn
  rwa [Nat.mod_eq_of_lt (by omega), Nat.mod_eq_of_lt (by omega)] at hn

/-- The map of the period search when the last value seen is `x_j` (40_prng.md R138). -/
def Prng.seen (g : Prng) : Nat → List (Word × Nat)
  | 0 => [(g.orbitWord 0, 0)]
  | j + 1 => (g.orbitWord (j + 1), j + 1) :: g.seen j

/-- A value different from all those seen is not in the map. -/
theorem Prng.lookup_seen_eq_none {g : Prng} {w : Word} {j : Nat} (h : ∀ i ≤ j, w ≠ g.orbitWord i) :
    (g.seen j).lookup w = none := by
  induction j with
  | zero => rw [Prng.seen, List.lookup_cons, beq_false_of_ne (h 0 (Nat.le_refl 0))]; rfl
  | succ j ih =>
    rw [Prng.seen, List.lookup_cons, beq_false_of_ne (h (j + 1) (Nat.le_refl _))]
    exact ih fun i hi => h i (by omega)

/-- A value seen once only is in the map at its index. -/
theorem Prng.lookup_seen_eq_some {g : Prng} {i j : Nat} (hij : i ≤ j)
    (h : ∀ k ≤ j, i < k → g.orbitWord i ≠ g.orbitWord k) :
    (g.seen j).lookup (g.orbitWord i) = some i := by
  induction j with
  | zero => obtain rfl := Nat.le_zero.1 hij; simp [Prng.seen]
  | succ j ih =>
    rw [Prng.seen, List.lookup_cons]
    by_cases he : i = j + 1
    · subst he; simp
    · rw [beq_false_of_ne (h (j + 1) (Nat.le_refl _) (by omega))]
      exact ih (by omega) fun k hk => h k (by omega)

/-- The period search from `x_j` on ends at the first repeat, `x_(mu+lam)`, with the cycle length, or when its
fuel is used up (40_prng.md R138, R139). -/
theorem Prng.periodLoop_eq {g : Prng} (hm : 0 < g.pm.toNat) (h0 : g.px0.toNat < g.pm.toNat)
    {mu lam : Nat} (hc : g.HasCycle mu lam) (fuel j : Nat) (h : Prng) (hp : g.SameParams h)
    (hpx : h.px.toNat = g.orbit j) (hj : j < mu + lam) :
    Prng.periodLoop fuel (j + 1) (g.seen j) h =
      if mu + lam ≤ j + fuel then (some lam, (Prng.advances (mu + lam - j) h).2)
      else (none, (Prng.advances fuel h).2) := by
  induction fuel generalizing j h with
  | zero => rw [if_neg (by omega)]; rfl
  | succ fuel ih =>
    have hx : h.advance.px.toNat = g.orbit (j + 1) := by
      rw [Prng.advance_px, hp.pm, hp.pa, hp.pc, lcgStep_toNat hm, hpx]; rfl
    have hw : h.advance.px = g.orbitWord (j + 1) := by
      rw [Prng.orbitWord, ← hx, BitVec.ofNat_toNat, BitVec.setWidth_eq]
    by_cases he : j + 1 = mu + lam
    · have hmu : g.orbitWord (j + 1) = g.orbitWord mu :=
        (Prng.orbitWord_inj hm h0).2 (he ▸ hc.repeats)
      have hpos := hc.pos
      have hl : (g.seen j).lookup h.advance.px = some mu := by
        rw [hw, hmu]
        exact Prng.lookup_seen_eq_some (by omega) fun k hk hlt =>
          (Prng.orbitWord_inj hm h0).not.2 (hc.distinct mu k hlt (by omega))
      rw [Prng.periodLoop_found hl, if_pos (by omega), show mu + lam - j = 1 by omega,
        show j + 1 - mu = lam by omega]
      rfl
    · have hl : (g.seen j).lookup h.advance.px = none := by
        rw [hw]
        exact Prng.lookup_seen_eq_none fun i hi =>
          (Prng.orbitWord_inj hm h0).not.2 (hc.distinct i (j + 1) (by omega) (by omega)).symm
      have hrec := ih (j + 1) h.advance ⟨hp.pm, hp.pa, hp.pc, hp.px0, hp.pvalid⟩ hx (by omega)
      rw [Prng.periodLoop_new hl, hw]
      refine hrec.trans (ite_congr (propext ⟨?_, ?_⟩) (fun _ => ?_) (fun _ => rfl))
      · omega
      · omega
      · rw [show mu + lam - j = mu + lam - (j + 1) + 1 by omega]; rfl

/-- What `findPeriod` answers and leaves (40_prng.md R139). -/
theorem Prng.findPeriod_eq {g : Prng} (hm : 0 < g.pm.toNat) (h0 : g.px0.toNat < g.pm.toNat)
    {mu lam : Nat} (hc : g.HasCycle mu lam) (n : Nat) :
    g.findPeriod n =
      if mu + lam ≤ n then (some lam, g.atOrbit (mu + lam)) else (none, g.atOrbit n) := by
  have hpos := hc.pos
  have hs : [(g.resetGen.px, 0)] = g.seen 0 := by
    simp [Prng.seen, Prng.orbitWord, Prng.orbit]
  have h := Prng.periodLoop_eq hm h0 hc n 0 g.resetGen ⟨rfl, rfl, rfl, rfl, rfl⟩ rfl (by omega)
  rw [Nat.zero_add, Nat.zero_add, Nat.sub_zero, Prng.advances_resetGen_snd hm,
    Prng.advances_resetGen_snd hm] at h
  rw [Prng.findPeriod, hs]
  exact h

/-- Settles O37. -/
theorem pPeriodFindsTheCycleLength : Obligations.PPeriodFindsTheCycleLength := by
  intro s hv hm h0
  obtain ⟨mu, lam, hc, hle⟩ := Prng.exists_hasCycle hm h0
  have hf := Prng.findPeriod_eq hm h0 hc s.arg0.toNat
  have hex : exec .pPeriod s = _ := exec_of_checksHold (i := .pPeriod) hv
  refine ⟨mu, lam, hc.pos, hle, hc.repeats, hc.distinct, fun hn => ?_, fun hn => ?_⟩
  · rw [if_pos hn] at hf
    rw [hex, effectOf, hf]
    rfl
  · rw [if_neg (by omega), Prng.atOrbit_toNat] at hf
    rw [hex, effectOf, hf]
    rfl

end Sys2Proof.Machine
end

section
/-! PROOFS, part 6: the payload that C_CBC_ENC writes. -/

namespace Sys2Proof.Machine

/-- Each block of the chained loop is the encryption of the plaintext's block xor the block before it, which for
the first is `prev` (44_cbc.md R226). -/
theorem blockAt_cbcEncBlocks (k : KeySchedule) {n i : Nat} (hi : i < n) (prev q : List Byte) :
    blockAt (cbcEncBlocks k n prev q) i =
      k.encrypt (xorBytes (blockAt q i)
        (if i = 0 then prev else blockAt (cbcEncBlocks k n prev q) (i - 1))) := by
  induction n generalizing i prev q with
  | zero => exact absurd hi (Nat.not_lt_zero i)
  | succ n ih =>
    have hc : (k.encrypt (xorBytes (q.take 8) prev)).length = 8 := KeySchedule.length_encrypt k _
    rw [cbcEncBlocks]
    cases i with
    | zero => rw [blockAt_append_zero hc]; rfl
    | succ i =>
      rw [blockAt_append_succ hc, ih (by omega), blockAt_drop, if_neg (Nat.succ_ne_zero i),
        Nat.add_sub_cancel]
      cases i with
      | zero => rw [blockAt_append_zero hc]; rfl
      | succ i => rw [blockAt_append_succ hc]; rfl

/-- Chained encryption satisfies its equations (44_cbc.md R226): it is the loop on the padded plaintext, behind
the encrypted IV. -/
theorem chainsTo_cbcEncrypt (k : KeySchedule) (iv p : List Byte) :
    chainsTo k iv p (cbcEncrypt k iv p) := by
  have hc : (k.encrypt iv).length = 8 := KeySchedule.length_encrypt k iv
  have hn : (pad8 p).length / 8 = p.length / 8 + 1 := by rw [length_pad8]; omega
  refine ⟨pad8 p, rfl, length_cbcEncrypt k iv p, blockAt_append_zero hc, fun i hi => ?_⟩
  rw [cbcEncrypt, hn, blockAt_append_succ hc, blockAt_cbcEncBlocks k hi]
  cases i with
  | zero => rfl
  | succ i => rw [blockAt_append_succ hc]; rfl

/-- The IV is the first two values from the seed (44_cbc.md R225). -/
theorem Prng.makeIV_eq {g : Prng} (hm : 0 < g.pm.toNat) :
    g.makeIV = (le32 (BitVec.ofNat 32 (g.orbit 1)) ++ le32 (BitVec.ofNat 32 (g.orbit 2)),
      g.atOrbit 2) := by
  have h := Prng.advances_resetGen hm 2
  have hx : [g.resetGen.advance.px, g.resetGen.advance.advance.px] =
      [BitVec.ofNat 32 (g.orbit 1), BitVec.ofNat 32 (g.orbit 2)] := congrArg Prod.fst h
  obtain ⟨h1, h2⟩ := List.cons_eq_cons.1 hx
  exact Prod.ext (congrArg₂ (le32 · ++ le32 ·) h1 (List.head_eq_of_cons_eq h2))
    (Prng.advances_resetGen_snd hm 2)

/-- Settles O56. -/
theorem cbcEncryptWritesThePayload : Obligations.CbcEncryptWritesThePayload := by
  rintro s _ _ _ rfl rfl rfl hk hv hm hsrc hdst
  have hiv := Prng.makeIV_eq hm
  have hbuf : (effectOf .cCbcEnc s).finish.buf = s.buf.putAll s.arg2.toNat
      (cbcEncrypt s.ks s.prng.makeIV.1 (s.memRead s.arg0.toNat s.arg1.toNat)) := rfl
  rw [hiv] at hbuf
  have hlen := length_cbcEncrypt s.ks (le32 (BitVec.ofNat 32 (s.prng.orbit 1)) ++
    le32 (BitVec.ofNat 32 (s.prng.orbit 2))) (s.memRead s.arg0.toNat s.arg1.toNat)
  rw [State.length_memRead, payloadLength] at hlen
  have hread := State.memRead_of_buf hbuf rfl hlen.symm
  refine ⟨_, exec_of_checksHold (i := .cCbcEnc) ⟨hk, hv, hsrc, hdst⟩, hread, ?_, fun a ha => ?_, ?_⟩
  · rw [hread]; exact chainsTo_cbcEncrypt _ _ _
  · exact State.readByte_of_buf hbuf rfl (by rw [hlen]; exact ha)
  · exact congrArg (fun g => { (effectOf .cCbcEnc s).finish with prng := g })
      (congrArg Prod.snd hiv)

end Sys2Proof.Machine
end

section
/-! PROOFS, part 7: BUF behind the host port, and the bytes of BUF that a command stores to and reads. -/

namespace Sys2Proof.Machine

/-! ### Accesses that issue no command -/

/-- A step whose access issues no command is its transaction (20_memory.md R80). -/
theorem step_transact {s : State} {x : Txn} {op : PortOp} {rest : List Input}
    (hp : s.port = .txn x :: rest) (hr : x.route = some op) (hc : ∀ cw, op ≠ .regWrite .cmd cw) :
    step s = .next (State.transact { s with port := rest } op) := by
  rw [step_txn hp, access_transact hr hc]

/-- A read-only register stores nothing (20_memory.md R83). -/
theorem State.writeReg_of_readOnly {r : Reg} (hr : r ∈ readOnlyRegs) (s : State) (v : Word) :
    s.writeReg r v = s := by
  simp only [readOnlyRegs, List.mem_cons, List.not_mem_nil, or_false] at hr
  rcases hr with rfl | rfl | rfl | rfl | rfl | rfl | rfl | rfl | rfl | rfl | rfl | rfl | rfl | rfl <;>
    rfl

/-- Settles O12. -/
theorem readOnlyRegisterWriteIsIgnored : Obligations.ReadOnlyRegisterWriteIsIgnored := by
  refine ⟨fun s r v rest hr hp => ?_, fun s rest hp => step_read32_reg (r := .cmd) hp⟩
  have hne : r ≠ .cmd := by rintro rfl; exact absurd hr (by decide)
  rw [step_write32_reg hne hp, State.writeReg_of_readOnly hr]
  rfl

/-- What a byte is after a word is stored little-endian at `k` (20_memory.md R74). -/
theorem State.readByte_memWrite_le32 (s : State) (k a : Nat) (v : Word) :
    (s.memWrite k (le32 v)).readByte a =
      if k ≤ a ∧ a < k + 4 then v.extractLsb' (8 * (a - k)) 8 else s.readByte a := by
  simp only [State.readByte_memWrite, length_le32, getElem_le32, dite_eq_ite]

/-- Settles O14. -/
theorem bufWriteLandsLittleEndian : Obligations.BufWriteLandsLittleEndian := by
  refine ⟨fun s k v rest hk hp => ?_, fun s k v rest hk h4 hp => ?_⟩
  · exact ⟨_, step_transact hp (route_write8 hk v) (by simp),
      fun a => State.readByte_writeByte { s with port := rest } k a v, rfl⟩
  · exact ⟨_, step_transact hp (route_write32_buf hk h4 v) (by simp),
      fun a => State.readByte_memWrite_le32 { s with port := rest } k a v, rfl⟩

/-- Byte `j` of the word read at `k` is the byte at `k + j` (20_memory.md R74). -/
theorem State.extractLsb'_wordOf_memRead (s : State) (k : Nat) {j : Nat} (hj : j < 4) :
    (wordOf (s.memRead k 4)).extractLsb' (8 * j) 8 = s.readByte (k + j) := by
  rw [← getElem_le32 _ j hj]
  simp only [le32_wordOf (State.length_memRead s k 4), State.getElem_memRead]

/-- Settles O15. -/
theorem bufReadIsLittleEndian : Obligations.BufReadIsLittleEndian := by
  refine ⟨fun s k rest hk hp => ?_, fun s k rest hk h4 hp => ?_⟩
  · exact step_transact hp (route_read8 hk) (by simp)
  · exact ⟨_, step_transact hp (route_read32_buf hk h4) (by simp),
      fun j hj => State.extractLsb'_wordOf_memRead s k hj⟩

/-! ### The errors of P_SEQ -/

/-- A command fails with the error of its first failing check (60_exceptions.md R256, R258). -/
theorem exec_of_firstFailure {i : Instr} {s : State} {e : ErrCode}
    (h : firstFailure (checksOf i s) = some e) : exec i s = .next (s.raise e) := by
  rw [exec_eq_command, command, h]; rfl

/-- A count is positive when its word is not 0. -/
theorem one_le_toNat_iff (n : Word) : 1 ≤ n.toNat ↔ n ≠ 0 := by
  rw [Nat.one_le_iff_ne_zero, ne_eq, ne_eq, ← BitVec.toNat_inj]; rfl

/-- Settles O36: P_SEQ's three checks fail in turn, and each failure records its code. -/
theorem pSeqErrorsComeInOrder : Obligations.PSeqErrorsComeInOrder := by
  refine fun s => ⟨fun h0 => ?_, fun h0 hv => ?_, fun h0 hv hr => ?_⟩
  · exact exec_of_firstFailure (e := .eCount) (by simp [checksOf, h0])
  · have hn := (one_le_toNat_iff _).2 h0
    exact exec_of_firstFailure (e := .eState) (by simp [checksOf, hn, hv])
  · have hn := (one_le_toNat_iff _).2 h0
    have hout := (inRange_eq_false_iff s.dst (4 * s.arg0.toNat)).2 hr
    exact exec_of_firstFailure (e := .eAddr) (by simp [checksOf, hn, hv, hout])

/-! ### The bytes that a command stores -/

/-- The string that a successful command stores from the start of its range on (20_memory.md R78). -/
def storedBytes (i : Instr) (s : State) : List Byte :=
  match i with
  | .pSeq => (Prng.advances s.arg0.toNat s.prng.resetGen).1.flatMap le32
  | .cEcbEnc => s.ks.encrypt (s.memRead s.src 8)
  | .cEcbDec => s.ks.decrypt (s.memRead s.src 8)
  | .cCbcEnc => cbcEncrypt s.ks s.prng.makeIV.1 (s.memRead s.src s.len)
  | .cCbcDec => s.cbcPlaintext.getD []
  | .nop | .clrerr | .sreset | .pInit | .pReset | .pNext | .pPeriod
  | .hInit | .hUpdate | .hFinal | .hDigest | .hVerify | .kDerive _ | .cSetkey _ _ _ => []

/-- A command changes BUF by storing that string there, and in no other way. -/
theorem effectOf_buf (i : Instr) (s : State) :
    (effectOf i s).buf = s.buf.putAll (writeRange i s).1 (storedBytes i s) := by
  cases i <;> rfl

/-- The string is as long as the range. -/
theorem length_storedBytes (i : Instr) (s : State) :
    (storedBytes i s).length = (writeRange i s).2 := by
  cases i with
  | pSeq => exact (length_flatMap_le32 _).trans (congrArg (4 * ·) (Prng.advances_spec _ _).1)
  | cCbcEnc =>
    exact (length_cbcEncrypt _ _ _).trans (congrArg payloadLength (State.length_memRead _ _ _))
  | _ => rfl

/-- A byte outside the range of a command is left by its effect. -/
theorem readByte_effectOf_outside {i : Instr} {s : State} {a : Nat}
    (h : ¬ inBytes (writeRange i s).1 (writeRange i s).2 a) :
    (effectOf i s).readByte a = s.readByte a :=
  State.readByte_of_buf (effectOf_buf i s) (effectOf_port i s).2.2 (by
    rw [length_storedBytes]; unfold inBytes at h; omega)

/-- A byte inside the range of a command is, after its effect, the byte of the string stored there. -/
theorem readByte_effectOf_inside {i : Instr} {s : State} {a : Nat}
    (h : inBytes (writeRange i s).1 (writeRange i s).2 a) :
    some ((effectOf i s).readByte a) = (storedBytes i s)[a - (writeRange i s).1]? := by
  obtain ⟨hle, hlt⟩ := h
  rw [← length_storedBytes] at hlt
  rw [State.readByte_congr (t := s.memWrite _ _) (effectOf_buf i s) (effectOf_port i s).2.2,
    State.readByte_memWrite, dif_pos ⟨hle, hlt⟩, List.getElem?_eq_getElem]

/-- Settles O26. -/
theorem commandsWriteOnlyTheirRange : Obligations.CommandsWriteOnlyTheirRange := by
  intro i s t h a ha
  rcases exec_cases i s with ⟨e, -, he⟩ | ⟨-, he⟩
  · obtain rfl := Host.Outcome.next.inj (he.symm.trans h)
    exact State.readByte_raise s e a
  · obtain rfl := Host.Outcome.next.inj (he.symm.trans h)
    exact readByte_effectOf_outside (ha.resolve_left Bool.false_ne_true)

/-! ### The bytes that a command reads -/

/-- The state with another BUF. -/
def State.setBuf (s : State) (m : Memory) : State := { s with buf := m }

/-- The string that a command reads (20_memory.md R78). -/
def sourceBytes (i : Instr) (s : State) : List Byte := s.memRead (readRange i s).1 (readRange i s).2

/-- A command that finds the same string finds the same plaintext in it. -/
theorem State.cbcPlaintext_setBuf {s : State} {m : Memory}
    (h : sourceBytes .cCbcDec (s.setBuf m) = sourceBytes .cCbcDec s) :
    (s.setBuf m).cbcPlaintext = s.cbcPlaintext :=
  congrArg (cbcDecrypt s.ks) h

/-- The checks of a command depend on no byte of BUF but those it reads. -/
theorem checksOf_setBuf {i : Instr} {s : State} {m : Memory}
    (h : sourceBytes i (s.setBuf m) = sourceBytes i s) : checksOf i (s.setBuf m) = checksOf i s := by
  cases i with
  | cCbcDec => rw [checksOf, State.cbcPlaintext_setBuf h]; rfl
  | _ => rfl

/-- The range that a command stores to is fixed by its operands, and for C_CBC_DEC by the plaintext, so it too
depends on no byte but those read. -/
theorem writeRange_setBuf {i : Instr} {s : State} {m : Memory}
    (h : sourceBytes i (s.setBuf m) = sourceBytes i s) :
    writeRange i (s.setBuf m) = writeRange i s := by
  cases i with
  | cCbcDec => rw [writeRange, State.cbcPlaintext_setBuf h]; rfl
  | _ => rfl

/-- The string that a command stores is a function of the string that it reads (20_memory.md R76). -/
theorem storedBytes_setBuf {i : Instr} {s : State} {m : Memory}
    (h : sourceBytes i (s.setBuf m) = sourceBytes i s) :
    storedBytes i (s.setBuf m) = storedBytes i s := by
  cases i with
  | cEcbEnc => exact congrArg s.ks.encrypt h
  | cEcbDec => exact congrArg s.ks.decrypt h
  | cCbcEnc => exact congrArg (cbcEncrypt s.ks s.prng.makeIV.1) h
  | cCbcDec => exact congrArg (·.getD []) (State.cbcPlaintext_setBuf h)
  | _ => rfl

/-- A command that finds the same string in two BUFs has the same effect on the rest of the state (20_memory.md
R76). -/
theorem effectOf_setBuf {i : Instr} {s : State} {m : Memory}
    (h : sourceBytes i (s.setBuf m) = sourceBytes i s) :
    effectOf i (s.setBuf m) = (effectOf i s).setBuf (effectOf i (s.setBuf m)).buf := by
  cases i with
  | hUpdate => exact congrArg (fun bs => { s.setBuf m with hash := s.hash.absorb bs }) h
  | hDigest => exact congrArg (fun bs => { s.setBuf m with hash := hashOf bs }) h
  | hVerify =>
    exact congrArg (fun bs => { s.setBuf m with
      hash := hashOf bs, res0 := if s.digestMatches (hashOf bs) then 1 else 0 }) h
  | kDerive n =>
    exact congrArg (fun bs => { (s.setBuf m).setKeyBytes
        ((hashOf bs).digest.take (derivedCount n) ++ s.keyBytes.drop (derivedCount n)) with
      hash := hashOf bs, res0 := BitVec.ofNat 32 (derivedCount n) }) h
  | cCbcDec =>
    exact congrArg (fun p => { (effectOf .cCbcDec (s.setBuf m)) with
      res0 := BitVec.ofNat 32 p.length }) (storedBytes_setBuf h)
  | _ => rfl

/-- Two BUFs that agree on the bytes that a command reads give it the same string. -/
theorem sourceBytes_setBuf {i : Instr} {s : State} {m : Memory}
    (h : ∀ a, inBytes (readRange i s).1 (readRange i s).2 a →
      (s.setBuf m).readByte a = s.readByte a) :
    sourceBytes i (s.setBuf m) = sourceBytes i s := by
  have hrange : readRange i (s.setBuf m) = readRange i s := by cases i <;> rfl
  rw [sourceBytes, hrange]
  exact State.memRead_congr fun k hk => h _ ⟨Nat.le_add_right _ k, Nat.add_lt_add_left hk _⟩

/-- Settles O27: the checks of the two runs are the same; where one fails both keep their BUF, and where none
does both store the same string. -/
theorem commandsDependOnlyOnTheBytesTheyRead : Obligations.CommandsDependOnlyOnTheBytesTheyRead := by
  intro i s m h
  show ∃ t t', _ ∧ exec i (s.setBuf m) = .next t' ∧ _
  have hsrc : sourceBytes i (s.setBuf m) = sourceBytes i s := sourceBytes_setBuf h
  have hwr := writeRange_setBuf hsrc
  cases hf : firstFailure (checksOf i s) with
  | some e =>
    exact ⟨_, _, exec_of_firstFailure hf, exec_of_firstFailure (by rwa [checksOf_setBuf hsrc]), rfl,
      fun a herr => absurd herr.symm Bool.false_ne_true, fun a _ => State.readByte_raise _ e a⟩
  | none =>
    have hc := (firstFailure_checksOf_eq_none_iff i s).1 hf
    have hc' : checksHold i (s.setBuf m) :=
      (firstFailure_checksOf_eq_none_iff i _).1 (by rwa [checksOf_setBuf hsrc])
    refine ⟨_, _, exec_of_checksHold hc, exec_of_checksHold hc',
      congrArg State.finish (effectOf_setBuf hsrc), fun a _ ha => ?_, fun a ha => ?_⟩
    · have hin := readByte_effectOf_inside (i := i) (s := s.setBuf m) (by rwa [hwr])
      rw [hwr, storedBytes_setBuf hsrc] at hin
      exact Option.some.inj (hin.trans (readByte_effectOf_inside ha).symm)
    · exact readByte_effectOf_outside (by rw [hwr]; exact ha.resolve_left Bool.false_ne_true)

end Sys2Proof.Machine
end

section
/-! PROOFS, part 8: the decoder, the encoder and the opcode map. A word is its four bytes; both the decoder and
the encoder are described by these bytes, so that each statement on the two is a comparison of bytes. -/

namespace Sys2Proof

/-! ### The four bytes of a word -/

theorem toNat_opcodeField (cw : Word) : (opcodeField cw).toNat = cw.toNat % 256 := by
  simp [opcodeField]

theorem toNat_rField (cw : Word) : (rField cw).toNat = cw.toNat / 2 ^ 8 % 256 := by
  simp [rField, Nat.shiftRight_eq_div_pow]

theorem toNat_bField (cw : Word) : (bField cw).toNat = cw.toNat / 2 ^ 16 % 256 := by
  simp [bField, Nat.shiftRight_eq_div_pow]

theorem toNat_wField (cw : Word) : (wField cw).toNat = cw.toNat / 2 ^ 24 % 256 := by
  simp [wField, Nat.shiftRight_eq_div_pow]

theorem toNat_reservedZ (cw : Word) : (reservedZ cw).toNat = cw.toNat / 2 ^ 8 % 2 ^ 24 := by
  simp [reservedZ, Nat.shiftRight_eq_div_pow]

/-- A word is the number that its four bytes spell. -/
theorem toNat_eq_fields (cw : Word) :
    cw.toNat = (opcodeField cw).toNat + (rField cw).toNat * 2 ^ 8 + (bField cw).toNat * 2 ^ 16 +
      (wField cw).toNat * 2 ^ 24 := by
  have := cw.isLt
  rw [toNat_opcodeField, toNat_rField, toNat_bField, toNat_wField]
  omega

/-- Two words with the same four bytes are one word. -/
theorem word_eq_iff_fields (v w : Word) :
    v = w ↔ opcodeField v = opcodeField w ∧ rField v = rField w ∧ bField v = bField w ∧
      wField v = wField w := by
  refine ⟨fun h => h ▸ ⟨rfl, rfl, rfl, rfl⟩, fun ⟨hop, hr, hb, hw⟩ => BitVec.eq_of_toNat_eq ?_⟩
  rw [toNat_eq_fields v, toNat_eq_fields w, hop, hr, hb, hw]

/-- The reserved field of format Z is the three bytes above the opcode (30_encoding.md R101). -/
theorem reservedZ_eq_zero_iff (cw : Word) :
    reservedZ cw = 0 ↔ rField cw = 0 ∧ bField cw = 0 ∧ wField cw = 0 := by
  have := cw.isLt
  simp only [← BitVec.toNat_inj, toNat_reservedZ, toNat_rField, toNat_bField, toNat_wField,
    BitVec.ofNat_eq_ofNat, BitVec.toNat_ofNat]
  omega

/-! ### The bytes of the word of a command -/

/-- The byte that a command has at `cw[15:8]` (30_encoding.md R101 to R103). -/
def Instr.rImm : Instr → Byte
  | .cSetkey _ _ r => r
  | _ => 0

/-- The byte that a command has at `cw[23:16]` (30_encoding.md R101 to R103). -/
def Instr.bImm : Instr → Byte
  | .kDerive n => n
  | .cSetkey _ b _ => b
  | _ => 0

/-- The byte that a command has at `cw[31:24]` (30_encoding.md R101 to R103). -/
def Instr.wImm : Instr → Byte
  | .cSetkey w _ _ => w
  | _ => 0

theorem Instr.immediates_eq (i : Instr) :
    i.immediates = i.rImm.toNat * 2 ^ 8 + i.bImm.toNat * 2 ^ 16 + i.wImm.toNat * 2 ^ 24 := by
  cases i <;> simp [Instr.immediates, Instr.rImm, Instr.bImm, Instr.wImm]

theorem toNat_encode (i : Instr) :
    (encode i).toNat = i.opcode.toNat + i.rImm.toNat * 2 ^ 8 + i.bImm.toNat * 2 ^ 16 +
      i.wImm.toNat * 2 ^ 24 := by
  rw [encode, BitVec.toNat_ofNat, Instr.immediates_eq]
  omega

@[simp] theorem opcodeField_encode (i : Instr) : opcodeField (encode i) = i.opcode := by
  apply BitVec.eq_of_toNat_eq
  rw [toNat_opcodeField, toNat_encode]
  omega

@[simp] theorem rField_encode (i : Instr) : rField (encode i) = i.rImm := by
  apply BitVec.eq_of_toNat_eq
  rw [toNat_rField, toNat_encode]
  omega

@[simp] theorem bField_encode (i : Instr) : bField (encode i) = i.bImm := by
  apply BitVec.eq_of_toNat_eq
  rw [toNat_bField, toNat_encode]
  omega

@[simp] theorem wField_encode (i : Instr) : wField (encode i) = i.wImm := by
  apply BitVec.eq_of_toNat_eq
  rw [toNat_wField, toNat_encode]
  omega

/-- A word is the word of a command exactly when its four bytes are the command's. -/
theorem eq_encode_iff (cw : Word) (i : Instr) :
    cw = encode i ↔ opcodeField cw = i.opcode ∧ rField cw = i.rImm ∧ bField cw = i.bImm ∧
      wField cw = i.wImm := by
  rw [word_eq_iff_fields, opcodeField_encode, rField_encode, bField_encode, wField_encode]

/-! ### The decoder, format by format -/

/-- A command of format Z has its opcode and no immediate (30_encoding.md R101). -/
theorem fields_of_mem_formatZ {op : Byte} {i : Instr} (h : (op, i) ∈ formatZ) :
    i.opcode = op ∧ i.rImm = 0 ∧ i.bImm = 0 ∧ i.wImm = 0 := by
  have hall : ∀ p ∈ formatZ, p.2.opcode = p.1 ∧ p.2.rImm = 0 ∧ p.2.bImm = 0 ∧ p.2.wImm = 0 := by
    decide
  exact hall _ h

/-- No opcode stands twice in the opcode map (30_encoding.md R104): an opcode of format Z is that of no other
format, and the lookup finds its command. -/
theorem lookup_of_mem_formatZ {op : Byte} {i : Instr} (h : (op, i) ∈ formatZ) :
    op ≠ 0x30#8 ∧ op ≠ 0x40#8 ∧ formatZ.lookup op = some i := by
  have hall : ∀ p ∈ formatZ,
      p.1 ≠ 0x30#8 ∧ p.1 ≠ 0x40#8 ∧ formatZ.lookup p.1 = some p.2 := by decide
  exact hall _ h

/-- Every command is of format Z, K or C (30_encoding.md R101 to R103). -/
theorem Instr.format_cases (i : Instr) :
    (i.opcode, i) ∈ formatZ ∨ (∃ n, i = .kDerive n) ∨ ∃ w b r, i = .cSetkey w b r := by
  cases i with
  | kDerive n => exact .inr (.inl ⟨n, rfl⟩)
  | cSetkey w b r => exact .inr (.inr ⟨w, b, r, rfl⟩)
  | _ => exact .inl (by decide)

/-- What the lookup finds is a row of format Z. -/
theorem mem_formatZ_of_lookup {op : Byte} {i : Instr} (h : formatZ.lookup op = some i) :
    (op, i) ∈ formatZ := by
  obtain ⟨l₁, l₂, hl, -⟩ := List.lookup_eq_some_iff.1 h
  rw [hl]
  simp

theorem decode_of_opcode_kDerive {cw : Word} (h : opcodeField cw = 0x30#8) :
    decode cw = if rField cw = 0 ∧ wField cw = 0 then .ok (.kDerive (bField cw))
      else .error .reservedBitSet := by
  rw [decode, if_pos h]

theorem decode_of_opcode_cSetkey {cw : Word} (h : opcodeField cw = 0x40#8) :
    decode cw = .ok (.cSetkey (wField cw) (bField cw) (rField cw)) := by
  rw [decode, if_neg (by rw [h]; decide), if_pos h]

theorem decode_of_mem_formatZ {cw : Word} {i : Instr} (h : (opcodeField cw, i) ∈ formatZ) :
    decode cw = if reservedZ cw = 0 then .ok i else .error .reservedBitSet := by
  obtain ⟨hk, hc, hl⟩ := lookup_of_mem_formatZ h
  rw [decode, if_neg hk, if_neg hc, hl]

theorem decode_of_unassigned {cw : Word} (hk : opcodeField cw ≠ 0x30#8) (hc : opcodeField cw ≠ 0x40#8)
    (hz : formatZ.lookup (opcodeField cw) = none) : decode cw = .error .unassignedOpcode := by
  rw [decode, if_neg hk, if_neg hc, hz]

/-- The word of a command decodes to the command. -/
theorem decode_encode (i : Instr) : decode (encode i) = .ok i := by
  rcases i.format_cases with hz | ⟨n, rfl⟩ | ⟨w, b, r, rfl⟩
  · obtain ⟨-, hr, hb, hw⟩ := fields_of_mem_formatZ hz
    rw [decode_of_mem_formatZ (by rwa [opcodeField_encode]),
      if_pos ((reservedZ_eq_zero_iff _).2 (by simp [hr, hb, hw]))]
  · rw [decode_of_opcode_kDerive (opcodeField_encode _), rField_encode, bField_encode, wField_encode]
    exact if_pos ⟨rfl, rfl⟩
  · rw [decode_of_opcode_cSetkey (opcodeField_encode _), rField_encode, bField_encode, wField_encode]
    rfl

/-- A word that decodes to a command has the four bytes of the command's word. -/
theorem eq_encode_of_decode {cw : Word} {i : Instr} (h : decode cw = .ok i) : cw = encode i := by
  by_cases hk : opcodeField cw = 0x30#8
  · rw [decode_of_opcode_kDerive hk] at h
    split at h
    · next hres =>
      obtain rfl := Except.ok.inj h
      exact (eq_encode_iff _ _).2 ⟨hk, hres.1, rfl, hres.2⟩
    · cases h
  by_cases hc : opcodeField cw = 0x40#8
  · rw [decode_of_opcode_cSetkey hc] at h
    obtain rfl := Except.ok.inj h
    exact (eq_encode_iff _ _).2 ⟨hc, rfl, rfl, rfl⟩
  cases hz : formatZ.lookup (opcodeField cw) with
  | none => rw [decode_of_unassigned hk hc hz] at h; cases h
  | some j =>
    have hmem := mem_formatZ_of_lookup hz
    rw [decode_of_mem_formatZ hmem] at h
    split at h
    · next hres =>
      obtain rfl := Except.ok.inj h
      obtain ⟨hop, hr, hb, hw⟩ := fields_of_mem_formatZ hmem
      obtain ⟨hr0, hb0, hw0⟩ := (reservedZ_eq_zero_iff cw).1 hres
      exact (eq_encode_iff _ _).2
        ⟨hop.symm, hr0.trans hr.symm, hb0.trans hb.symm, hw0.trans hw.symm⟩
    · cases h

/-- The decoder and the encoder are inverse to each other. -/
theorem decode_eq_ok_iff (cw : Word) (i : Instr) : decode cw = .ok i ↔ cw = encode i :=
  ⟨eq_encode_of_decode, fun h => h ▸ decode_encode i⟩

/-! ### The opcode map, row by row -/

/-- The rows of format Z match the words of the commands of format Z, bit for bit (30_encoding.md R104). -/
theorem opcodeRowsZ_eq_map :
    opcodeRowsZ = formatZ.map fun p => ⟨p.2.mnemonic, 0xFFFFFFFF, encode p.2⟩ := by decide

/-- A row whose mask is all ones is selected by its match only. -/
theorem selects_allOnes_iff (name : String) (p cw : Word) :
    OpcodeRow.selects ⟨name, 0xFFFFFFFF, p⟩ cw = true ↔ cw = p := by
  rw [OpcodeRow.selects, beq_iff_eq, show (0xFFFFFFFF : Word) = BitVec.allOnes 32 from rfl,
    BitVec.and_allOnes]

/-- A row is selected when each byte of the word, masked, is that byte of the match. -/
theorem selects_iff_fields (row : OpcodeRow) (cw : Word) :
    row.selects cw = true ↔
      opcodeField cw &&& opcodeField row.mask = opcodeField row.pattern ∧
      rField cw &&& rField row.mask = rField row.pattern ∧
      bField cw &&& bField row.mask = bField row.pattern ∧
      wField cw &&& wField row.mask = wField row.pattern := by
  rw [OpcodeRow.selects, beq_iff_eq, word_eq_iff_fields]
  simp only [opcodeField, rField, bField, wField, BitVec.extractLsb'_and]

/-- The words of K_DERIVE are those that select its row (30_encoding.md R102, R104). -/
theorem selects_kDerive_iff (cw : Word) :
    OpcodeRow.selects ⟨"K_DERIVE", 0xFF00FFFF, 0x00000030⟩ cw = true ↔
      ∃ n, cw = encode (.kDerive n) := by
  have hrow : OpcodeRow.selects ⟨"K_DERIVE", 0xFF00FFFF, 0x00000030⟩ cw = true ↔
      opcodeField cw &&& .allOnes 8 = 0x30 ∧ rField cw &&& .allOnes 8 = 0 ∧
        bField cw &&& 0 = 0 ∧ wField cw &&& .allOnes 8 = 0 := selects_iff_fields _ cw
  simp only [BitVec.and_allOnes] at hrow
  rw [hrow]
  simp [eq_encode_iff, Instr.opcode, Instr.rImm, Instr.bImm, Instr.wImm]

/-- The words of C_SETKEY are those that select its row (30_encoding.md R103, R104). -/
theorem selects_cSetkey_iff (cw : Word) :
    OpcodeRow.selects ⟨"C_SETKEY", 0x000000FF, 0x00000040⟩ cw = true ↔
      ∃ w b r, cw = encode (.cSetkey w b r) := by
  have hrow : OpcodeRow.selects ⟨"C_SETKEY", 0x000000FF, 0x00000040⟩ cw = true ↔
      opcodeField cw &&& .allOnes 8 = 0x40 ∧ rField cw &&& 0 = 0 ∧
        bField cw &&& 0 = 0 ∧ wField cw &&& 0 = 0 := selects_iff_fields _ cw
  simp only [BitVec.and_allOnes] at hrow
  rw [hrow]
  simp [eq_encode_iff, Instr.opcode, Instr.rImm, Instr.bImm, Instr.wImm]

/-- A word that selects a row is the word of a command with the row's mnemonic. -/
theorem eq_encode_of_selects {row : OpcodeRow} {cw : Word} (hrow : row ∈ opcodeRows)
    (hs : row.selects cw = true) : ∃ i, cw = encode i ∧ i.mnemonic = row.mnemonic := by
  rcases List.mem_append.1 hrow with hz | hkc
  · rw [opcodeRowsZ_eq_map] at hz
    obtain ⟨p, -, rfl⟩ := List.mem_map.1 hz
    exact ⟨p.2, (selects_allOnes_iff _ _ cw).1 hs, rfl⟩
  · rcases List.mem_pair.1 hkc with rfl | rfl
    · obtain ⟨n, hcw⟩ := (selects_kDerive_iff cw).1 hs
      exact ⟨_, hcw, rfl⟩
    · obtain ⟨w, b, r, hcw⟩ := (selects_cSetkey_iff cw).1 hs
      exact ⟨_, hcw, rfl⟩

/-- The word of every command selects a row with the command's mnemonic. -/
theorem encode_selects (i : Instr) :
    ∃ row ∈ opcodeRows, row.mnemonic = i.mnemonic ∧ row.selects (encode i) = true := by
  rcases i.format_cases with hz | ⟨n, rfl⟩ | ⟨w, b, r, rfl⟩
  · refine ⟨⟨i.mnemonic, 0xFFFFFFFF, encode i⟩, List.mem_append_left _ ?_, rfl,
      (selects_allOnes_iff _ _ _).2 rfl⟩
    rw [opcodeRowsZ_eq_map]
    exact List.mem_map_of_mem hz
  · exact Laws.EncodesOwnRow.kDerive n
  · exact Laws.EncodesOwnRow.cSetkey w b r

/-- The opcode map accepts exactly the words that decode to a command (30_encoding.md R104, R105). -/
theorem commandWordWf_iff (cw : Word) : commandWordWf cw = true ↔ ∃ i, decode cw = .ok i := by
  rw [commandWordWf, List.any_eq_true]
  constructor
  · rintro ⟨row, hrow, hs⟩
    obtain ⟨i, hcw, -⟩ := eq_encode_of_selects hrow hs
    exact ⟨i, (decode_eq_ok_iff cw i).2 hcw⟩
  · rintro ⟨i, hi⟩
    obtain ⟨row, hrow, -, hs⟩ := encode_selects i
    exact ⟨row, hrow, eq_encode_of_decode hi ▸ hs⟩

/-- A word is a command or illegal. -/
theorem decode_cases (cw : Word) : (∃ i, decode cw = .ok i) ∨ ∃ e, decode cw = .error e := by
  cases h : decode cw with
  | ok i => exact .inl ⟨i, rfl⟩
  | error e => exact .inr ⟨e, rfl⟩

/-- The illegal words are those that select no row (30_encoding.md R106). -/
theorem commandWordWf_eq_false_iff (cw : Word) :
    commandWordWf cw = false ↔ ∃ e, decode cw = .error e := by
  rw [← Bool.not_eq_true, commandWordWf_iff]
  rcases decode_cases cw with ⟨i, hi⟩ | ⟨e, he⟩
  · simp [hi]
  · simp [he]

end Sys2Proof

namespace Sys2Proof.Machine

/-! ### The statements -/

/-- Settles O1. -/
theorem decodeOfEncodeIsTheCommand : Obligations.DecodeOfEncodeIsTheCommand := decode_encode

/-- Settles O2. -/
theorem encodeOfDecodeIsTheWord : Obligations.EncodeOfDecodeIsTheWord :=
  fun _ _ h => (eq_encode_of_decode h).symm

/-- Settles O3: the decoder and the rows are both described by the words of the commands. -/
theorem decoderAgreesWithOpcodeMap : Obligations.DecoderAgreesWithOpcodeMap := by
  refine ⟨fun cw i h => ?_, fun cw row hrow hs => ?_⟩
  · rw [eq_encode_of_decode h]
    exact encode_selects i
  · obtain ⟨i, rfl, hi⟩ := eq_encode_of_selects hrow hs
    exact ⟨i, decode_encode i, hi⟩

/-- Settles O4. -/
theorem illegalWordOnlyRecordsTheError : Obligations.IllegalWordOnlyRecordsTheError := by
  refine ⟨decode_cases, commandWordWf_eq_false_iff, fun cw s rest hwf hp => ?_⟩
  obtain ⟨e, he⟩ := (commandWordWf_eq_false_iff cw).1 hwf
  rw [step_txn hp, access_cmd (route_cmd cw), issue_illegal he]
  rfl

/-- Settles O5: each legal word is the word of its command; of the illegal two, the first has a reserved bit set
under the opcode of C_ECB_ENC, and the opcode of the second is not assigned. -/
theorem writtenOutWordsDecode : Obligations.WrittenOutWordsDecode :=
  ⟨decode_encode .clrerr, decode_encode .pSeq, decode_encode .hVerify, decode_encode (.kDerive 8),
    decode_encode (.cSetkey 32 16 12), decode_encode .cEcbDec, decode_encode .cCbcEnc,
    decode_of_mem_formatZ (i := .cEcbEnc) (by decide),
    decode_of_unassigned (by decide) (by decide) (by decide)⟩

end Sys2Proof.Machine
end

section
/-! PROOFS, part 9: the commands of the PRNG Engine with one check: P_INIT, P_RESET and P_NEXT. -/

namespace Sys2Proof.Machine

/-- A command with one check fails with that check's error where the check does not hold. -/
theorem exec_of_onlyCheck_false {i : Instr} {s : State} {ok : Bool} {e : ErrCode}
    (hi : checksOf i s = [(ok, e)]) (hok : ok = false) : exec i s = .next (s.raise e) :=
  exec_of_firstFailure (by rw [hi, hok]; rfl)

/-- An advance emits the next value of the recurrence, computed on exact integers (40_prng.md R131, R132). -/
theorem Prng.advance_eq {g : Prng} {x : Word}
    (hx : x = BitVec.ofNat 32 ((g.pa.toNat * g.px.toNat + g.pc.toNat) % g.pm.toNat)) :
    g.advance = { g with px := x, phcnt := g.phcnt + 1, hist := g.hist ++ [x] } := by
  rw [hx]; rfl

/-- Settles O32: the model's check of the parameters is the ranges of R130. -/
theorem pInitValidatesTheParameters : Obligations.PInitValidatesTheParameters := by
  refine ⟨decode_encode .pInit, fun s => ⟨fun hp => ?_, fun hp => ?_⟩⟩
  · exact exec_of_checksHold (i := .pInit) hp
  · have hok : s.prng.paramsOk = false :=
      Bool.eq_false_iff.2 (mt (Prng.paramsOk_iff s.prng).1 hp)
    exact exec_of_onlyCheck_false (i := .pInit) (e := .ePrngParam) rfl hok

/-- Settles O33. -/
theorem pResetReturnsToTheSeed : Obligations.PResetReturnsToTheSeed := by
  refine ⟨decode_encode .pReset, fun s => ⟨fun hv => ?_, fun hv => ?_⟩⟩
  · exact exec_of_checksHold (i := .pReset) hv
  · exact exec_of_onlyCheck_false (i := .pReset) (e := .eState) rfl hv

/-- Settles O34: P_NEXT's effect is one advance, whose new PX is also RES0. -/
theorem pNextAdvancesTheGenerator : Obligations.PNextAdvancesTheGenerator := by
  refine ⟨decode_encode .pNext, fun s x hx => ⟨fun hv => ?_, fun hv => ?_⟩⟩
  · have hexec : exec .pNext s = _ := exec_of_checksHold (i := .pNext) hv
    rw [hexec, effectOf, Prng.advance_eq hx]
    rfl
  · exact exec_of_onlyCheck_false (i := .pNext) (e := .eState) rfl hv

end Sys2Proof.Machine
end

section
/-! PROOFS, part 10: the commands of the Hash Engine. A streamed and a single-shot hash are both compressions of
the 64-byte groups of the bytes absorbed. -/

namespace Sys2Proof.Machine

/-! ### Absorbing is compressing groups -/

theorem HashEngine.sameWords.trans {h k l : HashEngine} (e : h.sameWords k) (f : k.sameWords l) :
    h.sameWords l := by
  obtain ⟨ea, eb, ec, ed⟩ := e
  obtain ⟨fa, fb, fc, fd⟩ := f
  exact ⟨ea.trans fa, eb.trans fb, ec.trans fc, ed.trans fd⟩

/-- Bytes that do not fill the block wait, and the chaining registers stay (41_hash.md R162). -/
theorem HashEngine.absorb_short {h : HashEngine} {s : List Byte}
    (hf : h.hblk.length = h.hlen.toNat % 64) (hs : h.hblk.length + s.length < 64) :
    (h.absorb s).sameWords h ∧ (h.absorb s).hblk = h.hblk ++ s := by
  rw [HashEngine.absorb_waits s hf hs]
  exact ⟨⟨rfl, rfl, rfl, rfl⟩, rfl⟩

/-- `Absorb` by groups (41_hash.md R162): the full 64-byte groups of the waiting bytes and the string are
compressed, and the bytes after the last of them wait. -/
theorem HashEngine.absorb_groups {h : HashEngine} {s : List Byte} {n : Nat}
    (hf : h.hblk.length = h.hlen.toNat % 64) (hn : (h.hblk ++ s).length / 64 = n) :
    (h.absorb s).sameWords ((groupsOf64 n (h.hblk ++ s)).foldl HashEngine.compress h) ∧
    (h.absorb s).hblk = (h.hblk ++ s).drop (64 * n) := by
  rw [List.length_append] at hn
  cases n with
  | zero => exact HashEngine.absorb_short hf (by omega)
  | succ n =>
    obtain ⟨u, v, rfl, hu⟩ : ∃ u v, s = u ++ v ∧ h.hblk.length + u.length = 64 * (n + 1) :=
      ⟨s.take (64 * (n + 1) - h.hblk.length), s.drop (64 * (n + 1) - h.hblk.length), by simp,
        by simp; omega⟩
    have hfull : (h.hblk ++ u).length = 64 * (n + 1) := by rw [List.length_append, hu]
    obtain ⟨huwords, hublk⟩ := HashEngine.absorb_blocks (n + 1) hf hu
    rw [hfull, Nat.mul_div_cancel_left _ (by decide)] at huwords
    have hv : (h.absorb u).hblk.length + v.length < 64 := by
      rw [List.length_append] at hn
      rw [hublk, List.length_nil]; omega
    obtain ⟨hvwords, hvblk⟩ := HashEngine.absorb_short (HashEngine.absorb_fill hf u) hv
    rw [HashEngine.absorb_append, ← List.append_assoc, groupsOf64_append_right _ hfull,
      List.drop_left' hfull]
    exact ⟨hvwords.trans huwords, by rw [hvblk, hublk, List.nil_append]⟩

/-- Finalization compresses the waiting bytes and the padding (41_hash.md R164). -/
theorem HashEngine.final_groups {h : HashEngine} (hf : h.hblk.length = h.hlen.toNat % 64) :
    h.final.sameWords
      ((groupsOf64 ((h.hblk ++ padBytes h.hlen.toNat).length / 64)
        (h.hblk ++ padBytes h.hlen.toNat)).foldl HashEngine.compress h) :=
  (HashEngine.absorb_groups hf rfl).1

/-! ### A fresh hash -/

theorem HashEngine.init_absorb_hlen (s : List Byte) :
    (HashEngine.init.absorb s).hlen = BitVec.ofNat 64 s.length := by
  rw [HashEngine.absorb_hlen, HashEngine.init_hlen, zero_add]

/-- `Hash(s)` counts the bytes of `s` (41_hash.md R164, R165). -/
theorem hashOf_hlen (s : List Byte) : (hashOf s).hlen = BitVec.ofNat 64 s.length := by
  rw [hashOf, HashEngine.final_hlen, HashEngine.init_absorb_hlen]

/-- `Hash(s)` compresses the groups of `s` and its padding, from the initial constants: the padding follows `s`
through the same `Absorb` (41_hash.md R165). -/
theorem hashOf_groups {s : List Byte} (hs : s.length < 2 ^ 64) :
    (hashOf s).sameWords
      ((groupsOf64 ((s ++ padBytes s.length).length / 64) (s ++ padBytes s.length)).foldl
        HashEngine.compress HashEngine.init) := by
  have hcount : (HashEngine.init.absorb s).hlen.toNat = s.length := by
    rw [HashEngine.init_absorb_hlen, BitVec.toNat_ofNat, Nat.mod_eq_of_lt hs]
  have hpad : (hashOf s).sameWords (HashEngine.init.absorb (s ++ padBytes s.length)) := by
    rw [hashOf, HashEngine.final, hcount, ← HashEngine.absorb_append]
    exact ⟨rfl, rfl, rfl, rfl⟩
  exact hpad.trans (HashEngine.absorb_groups (h := HashEngine.init) rfl rfl).1

/-! ### The outcomes of the commands -/

theorem exec_hInit (s : State) :
    exec .hInit s = .next { s with hash := HashEngine.init, errcode := 0, err := false } := rfl

theorem exec_hUpdate {s : State} (hf : s.hash.hfin = false)
    (hr : s.arg0.toNat + s.arg1.toNat ≤ 65536) :
    exec .hUpdate s = .next { s with
      hash := s.hash.absorb (s.memRead s.arg0.toNat s.arg1.toNat), errcode := 0, err := false } :=
  exec_of_checksHold (i := .hUpdate) ⟨hf, hr⟩

theorem exec_hFinal {s : State} (hf : s.hash.hfin = false) :
    exec .hFinal s = .next { s with hash := s.hash.final, errcode := 0, err := false } :=
  exec_of_checksHold (i := .hFinal) hf

theorem exec_hDigest {s : State} (hr : s.arg0.toNat + s.arg1.toNat ≤ 65536) :
    exec .hDigest s = .next { s with
      hash := hashOf (s.memRead s.arg0.toNat s.arg1.toNat), errcode := 0, err := false } :=
  exec_of_checksHold (i := .hDigest) hr

/-- A command whose only check is its source range fails with E_ADDR outside BUF (41_hash.md R174, R175). -/
theorem exec_of_source_outside {i : Instr} {s : State}
    (hi : checksOf i s = [(inRange s.src s.len, .eAddr)])
    (hr : 65536 < s.arg0.toNat + s.arg1.toNat) : exec i s = .next (s.raise .eAddr) :=
  exec_of_onlyCheck_false hi ((inRange_eq_false_iff s.src s.len).2 hr)

/-! ### Comparing digests -/

/-- A word is determined by its four bytes, wherever they stand in a string (00_scope.md R12). -/
theorem le32_append_inj {v w : Word} {s t : List Byte} :
    le32 v ++ s = le32 w ++ t ↔ v = w ∧ s = t := by
  refine ⟨fun e => ?_, fun ⟨hv, hs⟩ => by rw [hv, hs]⟩
  obtain ⟨hv, hs⟩ := List.append_inj e rfl
  exact ⟨by rw [← wordOf_le32 v, hv, wordOf_le32], hs⟩

/-- The digest words are the expected ones exactly when the bytes are (41_hash.md R175; 10_state.md R45). -/
theorem State.digestMatches_iff (s : State) (h : HashEngine) :
    s.digestMatches h = true ↔
      h.digest = le32 s.hexp0 ++ le32 s.hexp1 ++ le32 s.hexp2 ++ le32 s.hexp3 := by
  have hlast : le32 h.hd = le32 s.hexp3 ↔ h.hd = s.hexp3 := by
    simpa using le32_append_inj (v := h.hd) (w := s.hexp3) (s := []) (t := [])
  rw [State.digestMatches, decide_eq_true_iff, HashEngine.digest]
  simp only [List.append_assoc, le32_append_inj, hlast]

/-! ### The statements -/

/-- Settles O39. -/
theorem hUpdateAbsorbsTheChunk : Obligations.HUpdateAbsorbsTheChunk := by
  refine ⟨decode_encode .hUpdate, fun s => ⟨fun hf hr => ?_, fun hf => ?_, fun hf hr => ?_⟩⟩
  · refine ⟨_, _, exec_hUpdate hf hr, rfl, ?_, ?_, fun hfill => ?_, fun _ => rfl, rfl⟩
    · rw [HashEngine.absorb_hlen, State.length_memRead]
    · rw [HashEngine.absorb_hfin, hf]
    · exact ⟨_, rfl, HashEngine.absorb_groups hfill rfl⟩
  · exact exec_of_firstFailure (e := .eState) (by simp [checksOf, hf])
  · have hout := (inRange_eq_false_iff s.src s.len).2 hr
    exact exec_of_firstFailure (e := .eAddr) (by simp [checksOf, hf, hout])

/-- Settles O40: the range of both chunks reads as the two ranges, one after the other. -/
theorem chunkBoundariesDoNotMatter : Obligations.ChunkBoundariesDoNotMatter := by
  intro s src m n hf hr
  have hsrc : (src + m).toNat = src.toNat + m.toNat := by rw [BitVec.toNat_add]; omega
  have hlen : (m + n).toNat = m.toNat + n.toNat := by rw [BitVec.toNat_add]; omega
  have hfirst : src.toNat + m.toNat ≤ 65536 := by omega
  have hsecond : (src + m).toNat + n.toNat ≤ 65536 := by omega
  have hboth : src.toNat + (m + n).toNat ≤ 65536 := by omega
  refine ⟨_, _, _, exec_hUpdate hf hfirst,
    exec_hUpdate ((HashEngine.absorb_hfin _ _).trans hf) hsecond, exec_hUpdate hf hboth, ?_⟩
  change (s.hash.absorb (s.memRead src.toNat m.toNat)).absorb (s.memRead (src + m).toNat n.toNat) =
    s.hash.absorb (s.memRead src.toNat (m + n).toNat)
  rw [hsrc, hlen, State.memRead_add, HashEngine.absorb_append]

/-- Settles O41. -/
theorem hFinalPadsAndFinalizes : Obligations.HFinalPadsAndFinalizes := by
  refine ⟨decode_encode .hFinal, fun s => ⟨fun hf hfill => ?_, fun hf => ?_⟩⟩
  · exact ⟨_, _, exec_hFinal hf, rfl, HashEngine.final_groups hfill, rfl, rfl, fun _ => rfl, rfl⟩
  · exact exec_of_onlyCheck_false (i := .hFinal) (e := .eState) rfl (by rw [hf]; rfl)

/-- Settles O42. -/
theorem hDigestCompressesThePaddedMessage : Obligations.HDigestCompressesThePaddedMessage := by
  refine ⟨decode_encode .hDigest, fun s => ⟨fun hr => ?_, exec_of_source_outside rfl⟩⟩
  have hlen := State.length_memRead s s.arg0.toNat s.arg1.toNat
  refine ⟨_, _, _, exec_hDigest hr, rfl, rfl, hashOf_groups (by omega), ?_, rfl, fun _ => rfl, rfl⟩
  rw [hashOf_hlen, hlen]

/-- Settles O43: H_DIGEST's hash is by definition that of the three commands, and none of them writes what
another one reads but the Hash Engine. -/
theorem oneShotEqualsStreamed : Obligations.OneShotEqualsStreamed := fun s hr =>
  ⟨_, _, _, exec_hInit s, exec_hUpdate rfl hr, exec_hFinal (HashEngine.absorb_hfin _ _),
    exec_hDigest hr⟩

/-- Settles O44: comparing the digest's words is comparing its bytes. -/
theorem hVerifyComparesTheDigest : Obligations.HVerifyComparesTheDigest := by
  refine ⟨decode_encode .hVerify, fun s => ⟨fun hr => ?_, exec_of_source_outside rfl⟩⟩
  have hexec : exec .hVerify s = _ := exec_of_checksHold (i := .hVerify) hr
  refine ⟨_, _, hexec, exec_hDigest hr, rfl, fun _ => rfl, ?_⟩
  simp only [effectOf, State.digestMatches_iff]
  rfl

/-- Settles O45: the number of zero bytes is `(55 − L) mod 64`. -/
theorem paddingFillsTheLastBlock : Obligations.PaddingFillsTheLastBlock := by
  intro L
  have hlen := length_padBytes L
  have hbits : BitVec.ofNat 64 ((8 * L) % 2 ^ 64) = BitVec.ofNat 64 (8 * L) :=
    BitVec.eq_of_toNat_eq (by simp)
  refine ⟨(55 + (64 - L % 64)) % 64, by omega, by omega, ?_, hlen, by omega, by omega,
    padBytes_fills L, fun m _ _ => by omega, fun _ => by omega, fun _ => by omega⟩
  rw [hbits, padBytes]

/-- Settles O46: each digest is one compression, which the kernel evaluates. -/
theorem digestsOfEmptyAndAbc : Obligations.DigestsOfEmptyAndAbc :=
  ⟨by decide +kernel, by decide +kernel⟩

/-- Settles O38. -/
theorem hInitStartsAFreshAccumulator : Obligations.HInitStartsAFreshAccumulator :=
  ⟨decode_encode .hInit, fun s =>
    ⟨_, exec_hInit s, rfl, rfl, rfl, rfl, rfl, rfl, fun _ => rfl, rfl⟩⟩

end Sys2Proof.Machine
end

section
/-! PROOFS, part 11: key derivation. What K_DERIVE leaves in KEY is a string of sixteen bytes whose first bytes
are the digest's; a key schedule of `b` bytes reads no others. -/

namespace Sys2Proof.Machine

/-! ### The bytes of the derived key -/

@[simp] theorem HashEngine.length_digest (h : HashEngine) : h.digest.length = 16 := rfl

/-- The KEY bytes as K_DERIVE leaves them (42_kdf.md R190). -/
def State.derivedKey (s : State) (n : Byte) : List Byte :=
  (hashOf (s.memRead s.src s.len)).digest.take (derivedCount n) ++ s.keyBytes.drop (derivedCount n)

theorem derivedCount_le (n : Byte) : derivedCount n ≤ 16 := Nat.min_le_right _ _

@[simp] theorem State.length_derivedKey (s : State) (n : Byte) : (s.derivedKey n).length = 16 := by
  have hk := derivedCount_le n
  rw [State.derivedKey, List.length_append, List.length_take, List.length_drop,
    HashEngine.length_digest, State.length_keyBytes]
  omega

/-- The produced bytes of the derived key are the digest's (42_kdf.md R190). -/
theorem State.take_derivedKey (s : State) {n : Byte} {k : Nat} (hk : k ≤ derivedCount n) :
    (s.derivedKey n).take k = (hashOf (s.memRead s.src s.len)).digest.take k := by
  have hlen : k ≤ ((hashOf (s.memRead s.src s.len)).digest.take (derivedCount n)).length := by
    rw [List.length_take, HashEngine.length_digest]
    exact le_min hk (hk.trans (derivedCount_le n))
  rw [State.derivedKey, List.take_append_of_le_length hlen, List.take_take, min_eq_left hk]

theorem State.keyBytes_effectOf_kDerive (s : State) (n : Byte) :
    (effectOf (.kDerive n) s).keyBytes = s.derivedKey n :=
  State.keyBytes_setKeyBytes s (s.length_derivedKey n)

/-! ### The schedule of a derived key -/

/-- A schedule of `b` key bytes depends on no other (43_cipher.md R201). -/
theorem keySchedule_congr {key key' : List Byte} {b : Nat} (h : key.take b = key'.take b) (r : Nat) :
    keySchedule key b r = keySchedule key' b r := by
  rw [keySchedule, keySchedule, keyWords, keyWords, h]

/-- K_DERIVE `n`, then C_SETKEY with a key length of at most the bytes produced: the schedule is that of the
digest (42_kdf.md R193; 43_cipher.md R200). -/
theorem exec_kDerive_cSetkey {s : State} {n b : Byte} (r : Byte)
    (hr : s.arg0.toNat + s.arg1.toNat ≤ 65536) (hb : 1 ≤ b.toNat) (hn : b.toNat ≤ derivedCount n) :
    ∃ t u, exec (.kDerive n) s = .next t ∧ exec (.cSetkey 32 b r) t = .next u ∧
      u.ks = { s := keySchedule (hashOf (s.memRead s.src s.len)).digest b.toNat r.toNat,
               cr := r, cb := b, ksvalid := true } := by
  have hb' : b.toNat ≤ 16 := hn.trans (derivedCount_le n)
  have hkey : (effectOf (.kDerive n) s).finish.keyBytes = s.derivedKey n :=
    s.keyBytes_effectOf_kDerive n
  refine ⟨_, _, exec_of_checksHold (i := .kDerive n) hr,
    exec_of_checksHold (i := .cSetkey 32 b r) ⟨rfl, hb, hb'⟩, ?_⟩
  rw [← keySchedule_congr (s.take_derivedKey hn), ← hkey]
  rfl

/-! ### The statements -/

/-- Settles O47: the string that K_DERIVE leaves in KEY is sixteen bytes long, so the KEY registers read it
back. -/
theorem kDeriveWritesTheKeyPrefix : Obligations.KDeriveWritesTheKeyPrefix := by
  refine fun s n => ⟨decode_encode (.kDerive n), fun hr => ?_, exec_of_source_outside rfl⟩
  exact ⟨_, _, exec_of_checksHold (i := .kDerive n) hr, exec_hDigest hr,
    s.keyBytes_effectOf_kDerive n, fun _ => rfl, rfl⟩

/-- Settles O49: both derivations produce at least `b` bytes, and so both schedules are that of the digest. -/
theorem shorterDerivationGivesTheSameSchedule : Obligations.ShorterDerivationGivesTheSameSchedule := by
  intro s b r hr hb hb'
  have hfull : b.toNat ≤ derivedCount 16 := hb'
  have hshort : b.toNat ≤ derivedCount b := le_min le_rfl hb'
  obtain ⟨t1, u1, ht1, hu1, hks1⟩ := exec_kDerive_cSetkey r hr hb hfull
  obtain ⟨t2, u2, ht2, hu2, hks2⟩ := exec_kDerive_cSetkey r hr hb hshort
  exact ⟨t1, t2, u1, u2, ht1, hu1, ht2, hu2, hks1.trans hks2.symm⟩

end Sys2Proof.Machine
end

section
/-! PROOFS, part 12: the key schedule and the single-block commands of the Block Cipher Engine. -/

namespace Sys2Proof.Machine

/-! ### The key words -/

/-- Byte `m` of the number that a string is in little-endian order is the string's byte `m`, and 0 past its end
(00_scope.md R12). -/
theorem le_div_mod (s : List Byte) (m : Nat) : le s / 2 ^ (8 * m) % 2 ^ 8 = (s.getD m 0).toNat := by
  induction s generalizing m with
  | nil => simp [le]
  | cons b s ih =>
    have hb := b.isLt
    cases m with
    | zero => rw [le, List.getD_cons_zero]; omega
    | succ m =>
      have hshift : (b.toNat + 2 ^ 8 * le s) / 2 ^ 8 = le s := by omega
      rw [le, List.getD_cons_succ, ← ih m, Nat.mul_succ, Nat.add_comm (8 * m), Nat.pow_add,
        ← Nat.div_div_eq_div_mul, hshift]

/-- Byte `m` of the word of a string is the string's byte `m`, and 0 past its end. -/
theorem extractLsb'_wordOf (s : List Byte) {m : Nat} (hm : m < 4) :
    (wordOf s).extractLsb' (8 * m) 8 = s.getD m 0 := by
  apply BitVec.eq_of_toNat_eq
  rw [← le_div_mod s m, BitVec.extractLsb'_toNat, wordOf, BitVec.toNat_ofNat,
    Nat.shiftRight_eq_div_pow]
  interval_cases m <;> omega

/-- The key words one by one (43_cipher.md R201). -/
theorem getD_keyWords (key : List Byte) {b j : Nat} (hj : j < (b + 3) / 4) :
    (keyWords key b).getD j 0 = wordOf (((key.take b).drop (4 * j)).take 4) := by
  simp [keyWords, hj]

/-- Byte `m` of the bytes of key word `j` is key byte `4j + m`, where the key has one (43_cipher.md R201). -/
theorem getD_keyWord_bytes (key : List Byte) (b j : Nat) {m : Nat} (hm : m < 4) :
    (((key.take b).drop (4 * j)).take 4).getD m 0 =
      if 4 * j + m < b then key.getD (4 * j + m) 0 else 0 := by
  simp only [List.getD_eq_getElem?_getD, List.getElem?_take, List.getElem?_drop, if_pos hm]
  split <;> rfl

/-- The word of one byte is that byte. -/
theorem wordOf_singleton (x : Byte) : wordOf [x] = x.zeroExtend 32 := by
  apply BitVec.eq_of_toNat_eq
  simp [wordOf, le]

/-- Settles O51. -/
theorem keyWordsAreLittleEndianAndPadded : Obligations.KeyWordsAreLittleEndianAndPadded := by
  refine ⟨fun key b _ h1 h16 => ⟨length_keyWords key b, by omega, by omega, fun j m hj hm => ?_⟩,
    fun s => ⟨?_, ?_⟩⟩
  · rw [getD_keyWords key hj, extractLsb'_wordOf _ hm, getD_keyWord_bytes key b j hm]
  · have hwords : keyWords s.keyBytes 16 =
        [wordOf (le32 s.key0), wordOf (le32 s.key1), wordOf (le32 s.key2), wordOf (le32 s.key3)] :=
      rfl
    rw [hwords, wordOf_le32, wordOf_le32, wordOf_le32, wordOf_le32]
  · have hwords : keyWords s.keyBytes 5 =
        [wordOf (le32 s.key0), wordOf [s.key1.extractLsb' 0 8]] := rfl
    rw [hwords, wordOf_le32, wordOf_singleton]

/-! ### The initial fill -/

/-- The initial fill in closed form, computed on exact integers (43_cipher.md R202). -/
theorem initialSchedule_eq_map (t : Nat) :
    initialSchedule t =
      (List.range t).map (fun i => BitVec.ofNat 32 (0xB7E15163 + i * 0x9E3779B9)) := by
  induction t with
  | zero => rfl
  | succ t ih =>
    rw [initialSchedule, ih, List.range_succ, List.map_append, List.map_singleton, BitVec.ofNat_add,
      BitVec.ofNat_mul]
    rfl

theorem getElem?_initialSchedule {t i : Nat} (hi : i < t) :
    (initialSchedule t)[i]? = some (BitVec.ofNat 32 (0xB7E15163 + i * 0x9E3779B9)) := by
  rw [initialSchedule_eq_map, List.getElem?_map, List.getElem?_range hi, Option.map_some]

/-- Settles O52: the recursive form follows from the closed form, as `i + 1` times Q32 is `i` times and once
more. -/
theorem initialScheduleIsAnArithmeticSequence : Obligations.InitialScheduleIsAnArithmeticSequence := by
  refine fun t => ⟨length_initialSchedule t, fun ht => getElem?_initialSchedule ht,
    fun i x hi hx => ?_, fun i hi => ?_⟩
  · rw [getElem?_initialSchedule (Nat.lt_of_succ_lt hi), Option.some_inj] at hx
    rw [getElem?_initialSchedule hi, ← hx, Nat.succ_mul, ← Nat.add_assoc, BitVec.ofNat_add]
    rfl
  · rw [getElem?_initialSchedule hi]
    exact congrArg some (BitVec.eq_of_toNat_eq (by simp))

/-! ### The mixing rounds -/

/-- The state before the first mixing round (43_cipher.md R203). -/
def mixStart (key : List Byte) (b r : Nat) : MixWork :=
  { s := initialSchedule (2 * (r + 1)), l := keyWords key b, a := 0, b := 0, i := 0, j := 0 }

theorem mixRounds_mixStart_indices (key : List Byte) (b r n : Nat) :
    (mixRounds n (mixStart key b r)).i = n % (2 * (r + 1)) ∧
    (mixRounds n (mixStart key b r)).j = n % (keyWords key b).length := by
  have h := mixRounds_indices n (initialSchedule (2 * (r + 1))) (keyWords key b)
  rwa [length_initialSchedule] at h

/-- The key schedule satisfies the equations of the mixing rounds (43_cipher.md R203, R204): A, B, S and L before
round `n` are those of the state that `n` rounds leave, whose indices are `n mod t` and `n mod c`. -/
theorem mixesTo_keySchedule (key : List Byte) (b r : Nat) :
    mixesTo (keyWords key b) (2 * (r + 1)) (keySchedule key b r) := by
  refine ⟨fun n => (mixRounds n (mixStart key b r)).a, fun n => (mixRounds n (mixStart key b r)).b,
    fun n => (mixRounds n (mixStart key b r)).s, fun n => (mixRounds n (mixStart key b r)).l,
    rfl, rfl, rfl, initialSchedule_eq_map _, fun n => ?_, rfl⟩
  obtain ⟨hi, hj⟩ := mixRounds_mixStart_indices key b r n
  simp only [mixRounds_succ, ← hi, ← hj]
  exact ⟨rfl, rfl, rfl, rfl⟩

/-! ### C_SETKEY -/

/-- The word of C_SETKEY, its fields at their places (30_encoding.md R103, R115). -/
theorem encode_cSetkey (w b r : Byte) :
    encode (.cSetkey w b r) =
      BitVec.ofNat 32 (0x40 + r.toNat * 2 ^ 8 + b.toNat * 2 ^ 16 + w.toNat * 2 ^ 24) := by
  rw [encode, Instr.immediates, ← Nat.add_assoc, ← Nat.add_assoc]
  rfl

/-- Settles O50. -/
theorem cSetkeyBuildsTheSchedule : Obligations.CSetkeyBuildsTheSchedule := by
  refine fun s w b r => ⟨?_, fun hw h1 h16 => ?_, fun hw => ?_, fun hw hb => ?_⟩
  · rw [← encode_cSetkey]
    exact decode_encode (.cSetkey w b r)
  · exact ⟨_, exec_of_checksHold (i := .cSetkey w b r) ⟨hw, h1, h16⟩, rfl,
      mixesTo_keySchedule _ _ _, length_keySchedule _ _ _, rfl, rfl, rfl, fun _ => rfl, rfl⟩
  · have hsize : decide (w.toNat = Config.cipherWordBits) = false := decide_eq_false hw
    exact exec_of_firstFailure (e := .eWordsize) (by rw [checksOf, hsize]; rfl)
  · have hsize : decide (w.toNat = Config.cipherWordBits) = true := decide_eq_true hw
    have hlen : decide (Config.bMin ≤ b.toNat ∧ b.toNat ≤ Config.bMax) = false :=
      decide_eq_false (by rw [Config.bMin, Config.bMax]; omega)
    exact exec_of_firstFailure (e := .eKeylen) (by rw [checksOf, hsize, hlen]; rfl)

/-! ### The single-block primitive -/

/-- Encryption undoes decryption of a block (43_cipher.md R208). -/
theorem KeySchedule.encrypt_decrypt (k : KeySchedule) {x : List Byte} (h : x.length = 8) :
    k.encrypt (k.decrypt x) = x := by
  simp only [KeySchedule.encrypt, KeySchedule.decrypt, ecbEncrypt, ecbDecrypt,
    BlockWords.ofBytes_toBytes, BitVec.sub_add_cancel]
  exact (congrArg BlockWords.toBytes (encRounds_decRounds _ _ _)).trans (BlockWords.toBytes_ofBytes h)

/-- The words of a block after the initial addition (43_cipher.md R205). -/
def KeySchedule.addInitial (k : KeySchedule) (blk : List Byte) : BlockWords :=
  ⟨(BlockWords.ofBytes blk).a + scheduleWord k.s 0, (BlockWords.ofBytes blk).b + scheduleWord k.s 1⟩

/-- Encryption satisfies the equations of its rounds (43_cipher.md R205): A and B after round `n` are those that
`n` rounds leave, and no round reads past the schedule. -/
theorem encryptsTo_encrypt (k : KeySchedule) {x : List Byte} (hx : x.length = 8)
    (hs : k.s.length = 2 * (k.cr.toNat + 1)) : encryptsTo k x (k.encrypt x) := by
  have hb : (x.drop 4).take 4 = x.drop 4 := List.take_of_length_le (by rw [List.length_drop]; omega)
  refine ⟨fun n => (encRounds k.s n (k.addInitial x)).a,
    fun n => (encRounds k.s n (k.addInitial x)).b, ?_, ?_, fun n hn => ?_, rfl⟩
  · exact congrArg (wordOf (x.take 4) + ·) (scheduleWord_of_lt (by omega))
  · exact congrArg₂ (wordOf · + ·) hb (scheduleWord_of_lt (by omega))
  · rw [← scheduleWord_of_lt (i := 2 * (n + 1)) (by omega),
      ← scheduleWord_of_lt (i := 2 * (n + 1) + 1) (by omega)]
    exact ⟨rfl, rfl⟩

/-- Settles O53: two functions between blocks that undo each other are bijections. -/
theorem blockEncryptionAndDecryptionAreInverse : Obligations.BlockEncryptionAndDecryptionAreInverse := by
  intro k
  have hinv : Set.InvOn k.decrypt k.encrypt {x | x.length = 8} {x | x.length = 8} :=
    ⟨fun _ => k.decrypt_encrypt, fun _ => k.encrypt_decrypt⟩
  have henc : Set.MapsTo k.encrypt {x | x.length = 8} {x | x.length = 8} :=
    fun x _ => k.length_encrypt x
  have hdec : Set.MapsTo k.decrypt {x | x.length = 8} {x | x.length = 8} :=
    fun x _ => k.length_decrypt x
  exact ⟨fun _ => encryptsTo_encrypt k, fun _ hx => ⟨k.decrypt_encrypt hx, k.encrypt_decrypt hx⟩,
    hinv.bijOn henc hdec, hinv.symm.bijOn hdec henc⟩

/-! ### The single-block commands -/

/-- The command transforms one block by the function `f` (43_cipher.md R207, R209). -/
def transformsBlock (i : Instr) (s : State) (f : List Byte → List Byte) : Prop :=
  i = .cEcbEnc ∧ f = s.ks.encrypt ∨ i = .cEcbDec ∧ f = s.ks.decrypt

/-- Both single-block commands have the same checks, and store the transformed block in the same way. -/
theorem transformsBlock.spec {i : Instr} {s : State} {f : List Byte → List Byte}
    (h : transformsBlock i s f) :
    checksOf i s = [(s.ks.ksvalid, .eState), (s.blockRangesOk, .eAddr)] ∧
    effectOf i s = s.memWrite s.arg2.toNat (f (s.memRead s.arg0.toNat 8)) ∧
    ∀ x, (f x).length = 8 := by
  obtain ⟨rfl, rfl⟩ | ⟨rfl, rfl⟩ := h
  · exact ⟨rfl, rfl, s.ks.length_encrypt⟩
  · exact ⟨rfl, rfl, s.ks.length_decrypt⟩

theorem State.blockRangesOk_iff (s : State) :
    s.blockRangesOk = true ↔ s.arg0.toNat + 8 ≤ 65536 ∧ s.arg2.toNat + 8 ≤ 65536 := by
  rw [State.blockRangesOk, Bool.and_eq_true, inRange_iff, inRange_iff]
  rfl

/-- Settles O54. -/
theorem ecbCommandsTransformOneBlock : Obligations.EcbCommandsTransformOneBlock := by
  refine ⟨decode_encode .cEcbEnc, decode_encode .cEcbDec, fun s i f hi => ?_⟩
  obtain ⟨hchecks, heffect, hlen⟩ := transformsBlock.spec hi
  refine ⟨fun hk hsrc hdst => ?_, fun hk => ?_, fun hk hout => ?_⟩
  · have hranges : s.blockRangesOk = true := s.blockRangesOk_iff.2 ⟨hsrc, hdst⟩
    have hexec : exec i s = .next (effectOf i s).finish :=
      exec_of_checks (by simp [hchecks, hk, hranges])
    rw [heffect] at hexec
    refine ⟨_, hexec, State.memRead_of_buf rfl rfl (hlen _).symm, fun a ha => ?_, rfl⟩
    exact State.readByte_of_buf rfl rfl (by rw [hlen]; exact ha)
  · exact exec_of_firstFailure (e := .eState) (by simp [hchecks, hk])
  · have hranges : s.blockRangesOk = false :=
      Bool.eq_false_iff.2 (mt s.blockRangesOk_iff.1 (by omega))
    exact exec_of_firstFailure (e := .eAddr) (by simp [hchecks, hk, hranges])

end Sys2Proof.Machine
end

section
/-! PROOFS, part 13: chained decryption. Its loop undoes the loop of chained encryption block by block, and
unpadding undoes padding. -/

namespace Sys2Proof.Machine

/-- The last byte of a padded string is the number of bytes added (44_cbc.md R220). -/
theorem getLastD_pad8 (d : List Byte) :
    (pad8 d).getLastD 0 = BitVec.ofNat 8 (8 - d.length % 8) := by
  obtain ⟨n, hn⟩ : ∃ n, 8 - d.length % 8 = n + 1 := ⟨7 - d.length % 8, by omega⟩
  rw [pad8, hn, List.replicate_succ', ← List.append_assoc, List.getLastD_concat]

/-- Unpadding undoes padding (44_cbc.md R222). -/
theorem unpad8_pad8 (d : List Byte) : unpad8 (pad8 d) = some d := by
  have hp : (BitVec.ofNat 8 (8 - d.length % 8)).toNat = 8 - d.length % 8 := by
    rw [BitVec.toNat_ofNat]; omega
  have hlen : (pad8 d).length - (8 - d.length % 8) = d.length := by rw [length_pad8]; omega
  rw [unpad8, getLastD_pad8, hp, if_neg (by omega), hlen, pad8, List.take_left]

/-- Decrypting `n` chained blocks gives back the bytes encrypted (44_cbc.md R226, R227). -/
theorem cbcDecBlocks_cbcEncBlocks (k : KeySchedule) (n : Nat) {prev q : List Byte}
    (hprev : prev.length = 8) (hq : q.length = 8 * n) :
    cbcDecBlocks k n prev (cbcEncBlocks k n prev q) = q := by
  induction n generalizing prev q with
  | zero => exact (List.length_eq_zero_iff.1 hq).symm
  | succ n ih =>
    have hblock : (q.take 8).length = prev.length := by rw [List.length_take]; omega
    have hx : (xorBytes (q.take 8) prev).length = 8 := by rw [length_xorBytes]; omega
    have hc := k.length_encrypt (xorBytes (q.take 8) prev)
    have hrest : (q.drop 8).length = 8 * n := by rw [List.length_drop]; omega
    rw [cbcEncBlocks, cbcDecBlocks, List.take_left' hc, List.drop_left' hc, ih hc hrest,
      k.decrypt_encrypt hx, xorBytes_cancel hblock, List.take_append_drop]

/-- Chained decryption of a payload gives back its plaintext (44_cbc.md R229). -/
theorem cbcDecrypt_cbcEncrypt (k : KeySchedule) {iv : List Byte} (p : List Byte)
    (hiv : iv.length = 8) : cbcDecrypt k (cbcEncrypt k iv p) = some p := by
  have hc := k.length_encrypt iv
  have hblocks : (cbcEncrypt k iv p).length / 8 - 1 = (pad8 p).length / 8 := by
    rw [length_cbcEncrypt, payloadLength, length_pad8]; omega
  have hq : (pad8 p).length = 8 * ((pad8 p).length / 8) := by rw [length_pad8]; omega
  rw [cbcDecrypt, hblocks, cbcEncrypt, List.take_left' hc, List.drop_left' hc,
    k.decrypt_encrypt hiv, cbcDecBlocks_cbcEncBlocks k _ hiv hq, unpad8_pad8]

/-- Each block of the decryption loop is the payload's block decrypted, xor the block before it, which for the
first is `prev` (44_cbc.md R227). -/
theorem blockAt_cbcDecBlocks (k : KeySchedule) {n i : Nat} (hi : i < n) {prev y : List Byte}
    (hprev : prev.length = 8) (hy : 8 * n ≤ y.length) :
    blockAt (cbcDecBlocks k n prev y) i =
      xorBytes (k.decrypt (blockAt y i)) (if i = 0 then prev else blockAt y (i - 1)) := by
  induction n generalizing i prev y with
  | zero => exact absurd hi (Nat.not_lt_zero i)
  | succ n ih =>
    have hc : (y.take 8).length = 8 := by rw [List.length_take]; omega
    have hx : (xorBytes (k.decrypt (y.take 8)) prev).length = 8 := by
      rw [length_xorBytes, k.length_decrypt, hprev]; rfl
    have hrest : 8 * n ≤ (y.drop 8).length := by rw [List.length_drop]; omega
    rw [cbcDecBlocks]
    cases i with
    | zero => exact blockAt_append_zero hx
    | succ i =>
      rw [blockAt_append_succ hx, ih (by omega) hc hrest, blockAt_drop,
        if_neg (Nat.succ_ne_zero i), Nat.add_sub_cancel]
      cases i with
      | zero => rfl
      | succ i => rw [if_neg (Nat.succ_ne_zero i), Nat.add_sub_cancel, blockAt_drop]

/-- Unpadding in the form of its rule: the last byte counts the padding (44_cbc.md R221). -/
theorem unpad8_eq (q : List Byte) :
    unpad8 q =
      if 1 ≤ (q.getLastD 0).toNat ∧ (q.getLastD 0).toNat ≤ 8
      then some (q.take (q.length - (q.getLastD 0).toNat)) else none := by
  rw [unpad8, ← ite_not]
  exact if_congr (by omega) rfl rfl

/-- Chained decryption satisfies its equations (44_cbc.md R227): it unpads the loop on the blocks after the first,
chained on the first one decrypted. -/
theorem unchainsTo_cbcDecrypt (k : KeySchedule) {y : List Byte} (h16 : 16 ≤ y.length)
    (h8 : y.length % 8 = 0) : unchainsTo k y (cbcDecrypt k y) := by
  have hiv := k.length_decrypt (y.take 8)
  have hrest : 8 * (y.length / 8 - 1) ≤ (y.drop 8).length := by rw [List.length_drop]; omega
  refine ⟨cbcDecBlocks k (y.length / 8 - 1) (k.decrypt (y.take 8)) (y.drop 8), ?_, fun i hi => ?_,
    unpad8_eq _⟩
  · rw [length_cbcDecBlocks k _ _ _ hiv hrest]; omega
  · rw [blockAt_cbcDecBlocks k hi hiv hrest, blockAt_drop]
    cases i with
    | zero => rfl
    | succ i => rw [if_neg (Nat.succ_ne_zero i), Nat.add_sub_cancel, blockAt_drop]; rfl

/-- Settles O59. -/
theorem chainedDecryptionUndoesEncryption : Obligations.ChainedDecryptionUndoesEncryption :=
  ⟨fun k iv p hiv => ⟨chainsTo_cbcEncrypt k iv p, cbcDecrypt_cbcEncrypt k p hiv⟩,
    fun k _ => unchainsTo_cbcDecrypt k⟩

end Sys2Proof.Machine
end

section
/-! PROOFS, part 14: the padding law, C_CBC_DEC and its errors, and the round trip of the chained mode through
BUF. -/

namespace Sys2Proof.Machine

/-! ### The padding law -/

/-- Settles O55. -/
theorem unpadUndoesPad : Obligations.UnpadUndoesPad := by
  refine fun d => ⟨unpad8_pad8 d, ?_⟩
  rw [length_pad8]
  exact ⟨by omega, by omega, by omega, fun m h8 hm => by omega⟩

/-! ### Decryption -/

/-- The effect of C_CBC_DEC on a payload with valid padding (44_cbc.md R228). -/
theorem effectOf_cCbcDec {s : State} {p : List Byte} (hp : s.cbcPlaintext = some p) :
    effectOf .cCbcDec s =
      { s.memWrite s.arg2.toNat p with res0 := BitVec.ofNat 32 p.length } := by
  rw [effectOf, hp]
  rfl

/-- Settles O57. -/
theorem cbcDecryptWritesThePlaintext : Obligations.CbcDecryptWritesThePlaintext := by
  intro s p hk h16 h8 hsrc hdst hp
  have hexec := exec_of_checksHold (i := .cCbcDec)
    ⟨hk, h16, h8, hsrc, hdst, Option.ne_none_iff_exists'.2 ⟨p, hp⟩⟩
  rw [effectOf_cCbcDec hp] at hexec
  have hread := s.length_memRead s.arg0.toNat s.arg1.toNat
  have hlen := length_of_cbcDecrypt (hread.symm ▸ h16) (hread.symm ▸ h8) hp
  rw [hread] at hlen
  exact ⟨_, hexec, State.memRead_of_buf rfl rfl rfl, hlen.1, hlen.2,
    fun a ha => State.readByte_of_buf rfl rfl ha, rfl⟩

/-! ### The errors -/

/-- The check of a source and a destination fails when one of them leaves BUF (20_memory.md R77). -/
theorem inRange_and_inRange_eq_false_iff (a m b n : Nat) :
    (inRange a m && inRange b n) = false ↔ 65536 < a + m ∨ 65536 < b + n := by
  rw [Bool.and_eq_false_iff, inRange_eq_false_iff, inRange_eq_false_iff]

/-- Settles O58: the checks of the two commands fail in turn, and each failure records its code. -/
theorem cbcErrorsComeInOrder : Obligations.CbcErrorsComeInOrder := by
  refine fun s => ⟨fun hnot => ?_, fun hk hv hout => ?_, fun hk => ?_, fun hk (hlt : s.len < 16) => ?_,
    fun hk (h16 : 16 ≤ s.len) (h8 : s.len % 8 ≠ 0) => ?_,
    fun hk (h16 : 16 ≤ s.len) (h8 : s.len % 8 = 0) hout => ?_,
    fun hk (h16 : 16 ≤ s.len) (h8 : s.len % 8 = 0) hsrc hdst hnone => ?_⟩
  · have hready : (s.ks.ksvalid && s.prng.pvalid) = false := Bool.and_eq_false_iff.2 hnot
    exact exec_of_firstFailure (e := .eState) (by simp [checksOf, hready])
  · have hranges := (inRange_and_inRange_eq_false_iff s.src s.len s.dst (payloadLength s.len)).2 hout
    exact exec_of_firstFailure (e := .eAddr) (by rw [checksOf, hk, hv, hranges]; rfl)
  · exact exec_of_firstFailure (e := .eState) (by simp [checksOf, hk])
  · exact exec_of_firstFailure (e := .eShort) (by simp [checksOf, hk, hlt])
  · exact exec_of_firstFailure (e := .eLength) (by simp [checksOf, hk, h16, h8])
  · have hranges := (inRange_and_inRange_eq_false_iff s.src s.len s.dst (s.len - 8)).2 hout
    exact exec_of_firstFailure (e := .eAddr) (by simp [checksOf, hk, h16, h8, hranges])
  · have hs := (inRange_iff s.src s.len).2 hsrc
    have hd := (inRange_iff s.dst (s.len - 8)).2 hdst
    have hpad : s.cbcPlaintext = none := hnone
    exact exec_of_firstFailure (e := .ePadding) (by simp [checksOf, hk, h16, h8, hs, hd, hpad])

/-! ### The round trip through BUF -/

/-- A command that leaves ERR clear met its checks and had its effect (60_exceptions.md R255, R256). -/
theorem exec_succeeded {i : Instr} {s t : State} (h : exec i s = .next t) (herr : t.err = false) :
    checksHold i s ∧ t = (effectOf i s).finish := by
  rcases exec_cases i s with ⟨e, -, he⟩ | ⟨hc, he⟩
  · obtain rfl := Host.Outcome.next.inj (he.symm.trans h)
    exact absurd herr.symm Bool.false_ne_true
  · exact ⟨(firstFailure_checksOf_eq_none_iff i s).1 hc, Host.Outcome.next.inj (h.symm.trans he)⟩

/-- After a successful C_CBC_ENC the payload at ARG2, as long as RES0 says, decrypts to the bytes that the
encryption read (44_cbc.md R229). -/
theorem cbcDecrypt_effectOf_cCbcEnc (s : State) :
    cbcDecrypt s.ks ((effectOf .cCbcEnc s).memRead s.arg2.toNat (payloadLength s.len)) =
      some (s.memRead s.src s.len) := by
  have hread : (effectOf .cCbcEnc s).memRead s.arg2.toNat (payloadLength s.len) =
      cbcEncrypt s.ks s.prng.makeIV.1 (s.memRead s.src s.len) :=
    State.memRead_of_buf rfl rfl (length_storedBytes .cCbcEnc s).symm
  rw [hread, cbcDecrypt_cbcEncrypt _ _ s.prng.length_makeIV]

/-- Settles O60: the payload meets the checks of C_CBC_DEC, which then writes its plaintext by O57. -/
theorem chainedRoundTripThroughBuf : Obligations.ChainedRoundTripThroughBuf := by
  intro s t back h herr hroom
  obtain ⟨⟨hk, -, hsrc, hdst⟩, rfl⟩ := exec_succeeded h herr
  have hres : ((effectOf .cCbcEnc s).finish.res0).toNat = payloadLength s.len :=
    (BitVec.toNat_ofNat _ _).trans (Nat.mod_eq_of_lt (by unfold payloadLength State.len; omega))
  have hlen : payloadLength s.len = 8 + 8 * (s.arg1.toNat / 8 + 1) := rfl
  obtain ⟨u, hu, hread, -, -, -, hframe⟩ := cbcDecryptWritesThePlaintext
    { (effectOf .cCbcEnc s).finish with
      arg0 := s.arg2, arg1 := (effectOf .cCbcEnc s).finish.res0, arg2 := back }
    (s.memRead s.src s.len) hk (by rw [hres]; omega) (by rw [hres]; omega) (by rw [hres]; exact hdst)
    (by rw [hres, hlen, Nat.add_sub_cancel_left]; exact hroom)
    (by rw [hres]; exact cbcDecrypt_effectOf_cCbcEnc s)
  rw [State.length_memRead] at hread hframe
  refine ⟨u, hu, by rw [hframe], ?_, hread⟩
  rw [hframe]
  exact (BitVec.ofNat_toNat 32 s.arg1).trans (BitVec.setWidth_eq _)

end Sys2Proof.Machine
end

section
/-! PROOFS, part 15: the system commands NOP and CLRERR. Neither has a check, so each has its effect in every
state and ends successfully. -/

namespace Sys2Proof.Machine

/-- Settles O29: NOP has no effect of its own, so only the successful end is left; the other word has the opcode
of NOP and a reserved bit set (45_system.md R240). -/
theorem nopOnlyClearsTheError : Obligations.NopOnlyClearsTheError := by
  refine ⟨decode_encode .nop, ?_, fun s => ?_⟩
  · have hz : (opcodeField 0x00000100, Instr.nop) ∈ formatZ := by decide
    rw [decode_of_mem_formatZ hz, if_neg (by decide)]
  · exact exec_of_checksHold (i := .nop) trivial

/-- Settles O30: CLRERR's effect clears STICKY, its successful end ERRCODE and ERR (45_system.md R241). -/
theorem clrerrClearsTheStickyFlag : Obligations.ClrerrClearsTheStickyFlag :=
  ⟨decode_encode .clrerr, fun _ => exec_of_checksHold (i := .clrerr) trivial⟩

end Sys2Proof.Machine
end

section
/-! PROOFS, part 16: that nothing stops the machine, and the two ends of a command over all commands: which of
them a command comes to, what each leaves, and which error a failed one reports (60_exceptions.md). -/

namespace Sys2Proof.Machine

/-! ### Every step answers -/

/-- Settles O17. -/
theorem idleStepHoldsTheState : Obligations.IdleStepHoldsTheState := fun _ => step_idle

/-- Every command answers, as each of its two ends does (60_exceptions.md R256; 70_reset_and_hazards.md
R293). -/
theorem exec_total (i : Instr) (s : State) : ∃ t, exec i s = .next t := by
  rcases exec_cases i s with ⟨e, -, he⟩ | ⟨-, he⟩
  · exact ⟨_, he⟩
  · exact ⟨_, he⟩

/-- Every access answers: a refused one with HostErr (20_memory.md R84; log 9). -/
theorem access_total (x : Txn) (s : State) : ∃ t, access x s = .next t := by
  cases hr : x.route with
  | none => exact ⟨_, access_hostErr hr⟩
  | some op =>
    obtain ⟨t, ht, -⟩ := access_answers hr s
    exact ⟨t, ht⟩

/-- Settles O18, by the input that the step takes. -/
theorem everyStepAnswersANextState : Obligations.EveryStepAnswersANextState := by
  refine ⟨fun s => ?_, exec_total⟩
  match hp : s.port with
  | [] => exact ⟨s, step_idle hp⟩
  | .hwReset :: rest => exact ⟨_, step_hwReset hp⟩
  | .txn x :: rest => rw [step_txn hp]; exact access_total x _

/-! ### The failed command -/

/-- A command that leaves ERR set failed with the error of its first failing check, which is all it records
(60_exceptions.md R256, R257). -/
theorem exec_failed {i : Instr} {s t : State} (h : exec i s = .next t) (herr : t.err = true) :
    ∃ e, firstFailure (checksOf i s) = some e ∧ t = s.raise e := by
  rcases exec_cases i s with ⟨e, hc, he⟩ | ⟨-, he⟩
  · exact ⟨e, hc, Host.Outcome.next.inj (h.symm.trans he)⟩
  · obtain rfl := Host.Outcome.next.inj (he.symm.trans h)
    exact absurd herr Bool.false_ne_true

/-- Settles O21. -/
theorem failedCommandChangesNothingElse : Obligations.FailedCommandChangesNothingElse := by
  intro i s t h herr
  obtain ⟨e, -, rfl⟩ := exec_failed h herr
  rfl

/-- The checks of a command raise exactly the errors of its row (60_exceptions.md R250), in that order. -/
theorem map_snd_checksOf (i : Instr) (s : State) : (checksOf i s).map Prod.snd = errorsOf i := by
  cases i <;> rfl

/-- The error of the first failing check is one of the command's own. -/
theorem mem_errorsOf_of_firstFailure {i : Instr} {s : State} {e : ErrCode}
    (h : firstFailure (checksOf i s) = some e) : e ∈ errorsOf i :=
  map_snd_checksOf i s ▸ List.mem_map_of_mem (firstFailure_mem h)

/-- Settles O22. -/
theorem commandsReportOnlyTheirErrors : Obligations.CommandsReportOnlyTheirErrors := by
  intro i s t h
  cases herr : t.err with
  | true =>
    obtain ⟨e, hc, rfl⟩ := exec_failed h herr
    exact .inr ⟨rfl, e, mem_errorsOf_of_firstFailure hc, rfl⟩
  | false =>
    obtain ⟨-, rfl⟩ := exec_succeeded h herr
    exact .inl ⟨rfl, rfl⟩

/-! ### The successful command -/

/-- STICKY is left alone by the effect of every command but CLRERR and SRESET (10_state.md R30). -/
theorem effectOf_sticky {i : Instr} (hclr : i ≠ .clrerr) (hrst : i ≠ .sreset) (s : State) :
    (effectOf i s).sticky = s.sticky := by
  cases i with
  | clrerr => exact absurd rfl hclr
  | sreset => exact absurd rfl hrst
  | _ => rfl

/-- Settles O23: the checks decide between the two ends. -/
theorem successfulCommandClearsTheError : Obligations.SuccessfulCommandClearsTheError := by
  intro i s
  rcases exec_cases i s with ⟨e, hc, he⟩ | ⟨hc, he⟩
  · have hnot : ¬ checksHold i s := by
      rw [← firstFailure_checksOf_eq_none_iff, hc]; exact Option.some_ne_none e
    exact ⟨_, he, fun h => absurd h hnot, fun _ => rfl⟩
  · have hhold := (firstFailure_checksOf_eq_none_iff i s).1 hc
    refine ⟨_, he, fun _ => ⟨rfl, rfl, fun hclr hrst => effectOf_sticky hclr hrst s, ?_⟩,
      fun hnot => absurd hhold hnot⟩
    rintro (rfl | rfl) <;> rfl

/-! ### E_STATE -/

/-- An error that only the first check raises is reported exactly when that check fails. -/
theorem firstFailure_cons_eq_some_iff {ok : Bool} {e : ErrCode} {checks : List (Bool × ErrCode)}
    (h : e ∉ checks.map Prod.snd) : firstFailure ((ok, e) :: checks) = some e ↔ ok = false := by
  cases ok with
  | false => exact ⟨fun _ => rfl, fun _ => rfl⟩
  | true =>
    exact ⟨fun hf => absurd (List.mem_map_of_mem (firstFailure_mem (checks := checks) hf)) h,
      fun hf => absurd hf.symm Bool.false_ne_true⟩

/-- The code recorded is that of the first failing check. -/
theorem errcode_eq_code_iff {i : Instr} {s t : State} (h : exec i s = .next t) (e : ErrCode) :
    t.errcode = e.code ↔ firstFailure (checksOf i s) = some e := by
  rcases exec_cases i s with ⟨e', hc, he⟩ | ⟨hc, he⟩
  · obtain rfl := Host.Outcome.next.inj (he.symm.trans h)
    rw [hc, Option.some_inj]
    exact ⟨ErrCode.code_injective, congrArg ErrCode.code⟩
  · obtain rfl := Host.Outcome.next.inj (he.symm.trans h)
    rw [hc]
    exact ⟨fun h0 => absurd h0.symm e.code_ne_zero, nofun⟩

/-- The first failing check is the one of the engine state exactly when that state is absent: the check comes
first in every command that has it but P_SEQ, where the count comes before it (60_exceptions.md R258, R259). -/
theorem firstFailure_eq_eState_iff (i : Instr) (s : State) :
    firstFailure (checksOf i s) = some .eState ↔
      ¬ engineReady i s ∧ ¬ (i = .pSeq ∧ s.arg0 = 0) := by
  cases i with
  | nop | clrerr | sreset | pInit | hInit | hDigest | hVerify | kDerive | cSetkey =>
    exact ⟨fun h => absurd (mem_errorsOf_of_firstFailure h) (by simp [errorsOf]),
      fun h => absurd trivial h.1⟩
  | pReset | pNext | pPeriod | hUpdate | hFinal | cEcbEnc | cEcbDec | cCbcEnc | cCbcDec =>
    rw [checksOf, firstFailure_cons_eq_some_iff (by simp)]
    simp [engineReady]
  | pSeq =>
    by_cases h0 : s.arg0 = 0
    · simp [checksOf, h0]
    · have hn := (one_le_toNat_iff _).2 h0
      rw [checksOf, firstFailure_cons, if_pos (decide_eq_true hn),
        firstFailure_cons_eq_some_iff (by simp), ← Bool.not_eq_true]
      exact ⟨fun hv => ⟨hv, fun hz => h0 hz.2⟩, And.left⟩

/-- Settles O24. -/
theorem stateErrorExactlyWhenEngineNotReady : Obligations.StateErrorExactlyWhenEngineNotReady := by
  intro i s
  obtain ⟨t, ht⟩ := exec_total i s
  exact ⟨t, ht, (errcode_eq_code_iff ht .eState).trans (firstFailure_eq_eState_iff i s)⟩

end Sys2Proof.Machine
end

section
/-! PROOFS, part 17: the one Hash Engine that the streamed and the single-shot commands share. A single-shot
hash leaves it finalized, and a finalized engine refuses to stream on (70_reset_and_hazards.md R287). -/

namespace Sys2Proof.Machine

/-- The commands that hash the source range at once leave the engine of that fresh hash, whatever it held
(41_hash.md R174, R175; 42_kdf.md R190). -/
theorem effectOf_hash_of_singleShot {i : Instr} (hi : i = .hDigest ∨ i = .hVerify ∨ ∃ n, i = .kDerive n)
    (s : State) : (effectOf i s).hash = hashOf (s.memRead s.src s.len) := by
  obtain rfl | rfl | ⟨n, rfl⟩ := hi
  · rfl
  · rfl
  · rfl

/-- A finalized engine takes no further bytes, wherever they stand: the state is H_UPDATE's first check
(41_hash.md R172). -/
theorem exec_hUpdate_of_finalized {s : State} (hf : s.hash.hfin = true) :
    exec .hUpdate s = .next (s.raise .eState) :=
  exec_of_firstFailure (by simp [checksOf, hf])

/-- A finalized engine is not finalized again (41_hash.md R173). -/
theorem exec_hFinal_of_finalized {s : State} (hf : s.hash.hfin = true) :
    exec .hFinal s = .next (s.raise .eState) :=
  exec_of_onlyCheck_false (i := .hFinal) rfl (by rw [hf]; rfl)

/-- Settles O48: the fresh hash of the command in between ended with a finalization, so HFIN is set. -/
theorem sharedHashEngineEndsAStreamedHash : Obligations.SharedHashEngineEndsAStreamedHash := by
  intro s t i hi h herr
  obtain ⟨-, rfl⟩ := exec_succeeded h herr
  have hfin : (effectOf i s).hash.hfin = true := by
    rw [effectOf_hash_of_singleShot hi, hashOf, HashEngine.final_hfin]
  exact ⟨exec_hUpdate_of_finalized hfin, exec_hFinal_of_finalized hfin⟩

end Sys2Proof.Machine
end
